-- ==== Sys2Proof/Word.lean ====
section
/-! DEFINITION. The word types of the rv32ISS core (spec/00_scope.md R8, R11): 32-bit patterns, bytes, 5-bit register
indices. `s(v)` of R11 is `BitVec.toInt`, `u(v)` is `BitVec.toNat`; the wrapping operations of R12 are `BitVec`'s. -/

namespace Sys2Proof

/-- A register value, an address, a pc or an instruction word (R11). -/
abbrev Word := BitVec 32

/-- One byte of memory (R31). -/
abbrev Byte := BitVec 8

/-- A register index as the decoder produces it: a 5-bit field (R20). -/
abbrev RegIdx := BitVec 5

end Sys2Proof
end

