-- ==== Sys2Proof/Config.lean ====
section
/-! DEFINITION. What is fixed for one machine: the memory window (spec/00_scope.md R8) and the type of the ECALL
convention (R9, STATUS_REG and PASS_VALUE). The defaults of R9's parameters stand in Machine/Defaults.lean. -/

namespace Sys2Proof.Config

/-- BASE, the lowest memory address (R8). -/
def base : Nat := 0x80000000

/-- CAPACITY, the size of the memory in bytes: 16 MiB (R8). -/
def capacity : Nat := 0x01000000

/-- The ECALL convention: which register ECALL inspects and which value means Pass (R9, R231). -/
structure Convention where
  /-- STATUS_REG -/
  statusReg : RegIdx
  /-- PASS_VALUE -/
  passValue : Word
deriving DecidableEq, Repr

end Sys2Proof.Config
end

