-- ==== Sys2Proof/Syntax.lean ====
section
/-! DEFINITION. The syntax: one constructor per row of spec/opcode_table.json (39 rows, spec/00_scope.md R3), with the
operand fields of its format (spec/30_encoding.md R78). Immediates keep the width of their encoding; jump and branch
offsets are byte offsets, whose bit 0 the encoding fixes at 0 (checked in WellFormed.lean). -/

namespace Sys2Proof

/-- The three error kinds (spec/60_exceptions.md R240). The decoder reports the last two, a memory access the first. -/
inductive ErrorKind where
  | outOfBounds
  | unknownOpcode
  | illegalInstruction
deriving DecidableEq, Repr

/-- The opcode classes (spec/30_encoding.md R81, spec/00_scope.md R17). -/
inductive OpClass where
  | lui | auipc | jal | jalr | branch | load | store | imm | op | miscmem | system
deriving DecidableEq, Repr

/-- The 39 operations of the core (R3) with their operands. -/
inductive Instr where
  /-- LUI rd, imm: `imm` is bits 31:12 of immU (R140) -/
  | lui (rd : RegIdx) (imm : BitVec 20)
  /-- AUIPC rd, imm: `imm` is bits 31:12 of immU (R141) -/
  | auipc (rd : RegIdx) (imm : BitVec 20)
  /-- JAL rd, imm: the byte offset, bit 0 included (R150, R76) -/
  | jal (rd : RegIdx) (imm : BitVec 21)
  /-- JALR rd, imm(rs1) (R151) -/
  | jalr (rd rs1 : RegIdx) (imm : BitVec 12)
  /-- BEQ rs1, rs2, imm: the byte offset, bit 0 included (R161, R74) -/
  | beq (rs1 rs2 : RegIdx) (imm : BitVec 13)
  /-- BNE rs1, rs2, imm: the byte offset, bit 0 included (R162, R74) -/
  | bne (rs1 rs2 : RegIdx) (imm : BitVec 13)
  /-- BLT rs1, rs2, imm: the byte offset, bit 0 included (R163, R74) -/
  | blt (rs1 rs2 : RegIdx) (imm : BitVec 13)
  /-- BGE rs1, rs2, imm: the byte offset, bit 0 included (R164, R74) -/
  | bge (rs1 rs2 : RegIdx) (imm : BitVec 13)
  /-- BLTU rs1, rs2, imm: the byte offset, bit 0 included (R165, R74) -/
  | bltu (rs1 rs2 : RegIdx) (imm : BitVec 13)
  /-- BGEU rs1, rs2, imm: the byte offset, bit 0 included (R166, R74) -/
  | bgeu (rs1 rs2 : RegIdx) (imm : BitVec 13)
  /-- LB rd, imm(rs1) (R171) -/
  | lb (rd rs1 : RegIdx) (imm : BitVec 12)
  /-- LH rd, imm(rs1) (R172) -/
  | lh (rd rs1 : RegIdx) (imm : BitVec 12)
  /-- LW rd, imm(rs1) (R173) -/
  | lw (rd rs1 : RegIdx) (imm : BitVec 12)
  /-- LBU rd, imm(rs1) (R174) -/
  | lbu (rd rs1 : RegIdx) (imm : BitVec 12)
  /-- LHU rd, imm(rs1) (R175) -/
  | lhu (rd rs1 : RegIdx) (imm : BitVec 12)
  /-- SB rs2, imm(rs1) (R177) -/
  | sb (rs1 rs2 : RegIdx) (imm : BitVec 12)
  /-- SH rs2, imm(rs1) (R178) -/
  | sh (rs1 rs2 : RegIdx) (imm : BitVec 12)
  /-- SW rs2, imm(rs1) (R179) -/
  | sw (rs1 rs2 : RegIdx) (imm : BitVec 12)
  /-- ADDI rd, rs1, imm (R191) -/
  | addi (rd rs1 : RegIdx) (imm : BitVec 12)
  /-- SLTI rd, rs1, imm (R192) -/
  | slti (rd rs1 : RegIdx) (imm : BitVec 12)
  /-- SLTIU rd, rs1, imm (R193) -/
  | sltiu (rd rs1 : RegIdx) (imm : BitVec 12)
  /-- XORI rd, rs1, imm (R194) -/
  | xori (rd rs1 : RegIdx) (imm : BitVec 12)
  /-- ORI rd, rs1, imm (R195) -/
  | ori (rd rs1 : RegIdx) (imm : BitVec 12)
  /-- ANDI rd, rs1, imm (R196) -/
  | andi (rd rs1 : RegIdx) (imm : BitVec 12)
  /-- SLLI rd, rs1, shamt (R197) -/
  | slli (rd rs1 : RegIdx) (shamt : BitVec 5)
  /-- SRLI rd, rs1, shamt (R198) -/
  | srli (rd rs1 : RegIdx) (shamt : BitVec 5)
  /-- SRAI rd, rs1, shamt (R199) -/
  | srai (rd rs1 : RegIdx) (shamt : BitVec 5)
  /-- ADD rd, rs1, rs2 (R211) -/
  | add (rd rs1 rs2 : RegIdx)
  /-- SUB rd, rs1, rs2 (R212) -/
  | sub (rd rs1 rs2 : RegIdx)
  /-- SLL rd, rs1, rs2 (R213) -/
  | sll (rd rs1 rs2 : RegIdx)
  /-- SLT rd, rs1, rs2 (R214) -/
  | slt (rd rs1 rs2 : RegIdx)
  /-- SLTU rd, rs1, rs2 (R215) -/
  | sltu (rd rs1 rs2 : RegIdx)
  /-- XOR rd, rs1, rs2 (R216) -/
  | xor (rd rs1 rs2 : RegIdx)
  /-- SRL rd, rs1, rs2 (R217) -/
  | srl (rd rs1 rs2 : RegIdx)
  /-- SRA rd, rs1, rs2 (R218) -/
  | sra (rd rs1 rs2 : RegIdx)
  /-- OR rd, rs1, rs2 (R219) -/
  | or (rd rs1 rs2 : RegIdx)
  /-- AND rd, rs1, rs2 (R220) -/
  | and (rd rs1 rs2 : RegIdx)
  /-- FENCE, with the fields the core ignores kept as they stand in the word (R230, R87) -/
  | fence (fm pred succ : BitVec 4) (rs1 rd : RegIdx)
  /-- ECALL (R231) -/
  | ecall
deriving DecidableEq, Repr

end Sys2Proof
end

