-- ==== Sys2Proof/Decode.lean ====
section
/-! DEFINITION. From bytes to an instruction and back (spec/30_encoding.md): byte order (spec/20_memory.md R45, R48), the
fields (R71), the five immediates (R72 to R77), the decoder with its two named errors (R90 to R93), and the encoder,
written from the same tables (R78, R81 to R89). -/

namespace Sys2Proof

/-! ## Byte order, the one place where it is decided (R48) -/

/-- The little-endian value of the bytes, the first being bits 7:0 (R45, R46). -/
def wordOfBytes : List Byte → Word
  | [] => 0
  | b :: bs => b.setWidth 32 ||| (wordOfBytes bs <<< 8)

/-- The low `n` bytes of a word, bits 7:0 first (R47). -/
def bytesOfWord : Nat → Word → List Byte
  | 0, _ => []
  | n + 1, v => v.setWidth 8 :: bytesOfWord n (v >>> 8)

/-! ## Fields (R71) -/

def opcodeOf (w : Word) : BitVec 7 := w.extractLsb' 0 7
def rdOf (w : Word) : RegIdx := w.extractLsb' 7 5
def funct3Of (w : Word) : BitVec 3 := w.extractLsb' 12 3
def rs1Of (w : Word) : RegIdx := w.extractLsb' 15 5
def rs2Of (w : Word) : RegIdx := w.extractLsb' 20 5
def funct7Of (w : Word) : BitVec 7 := w.extractLsb' 25 7

/-! ## Immediate fields, at the width of their encoding (R72 to R76) -/

/-- w[31:20] (R72). -/
def immIField (w : Word) : BitVec 12 := w.extractLsb' 20 12

/-- w[31:25] ++ w[11:7] (R73). -/
def immSField (w : Word) : BitVec 12 := w.extractLsb' 25 7 ++ w.extractLsb' 7 5

/-- w[31] ++ w[7] ++ w[30:25] ++ w[11:8] ++ 0 (R74). -/
def immBField (w : Word) : BitVec 13 :=
  w.extractLsb' 31 1 ++ w.extractLsb' 7 1 ++ w.extractLsb' 25 6 ++ w.extractLsb' 8 4 ++ 0#1

/-- w[31:12] (R75). -/
def immUField (w : Word) : BitVec 20 := w.extractLsb' 12 20

/-- w[31] ++ w[19:12] ++ w[20] ++ w[30:21] ++ 0 (R76). -/
def immJField (w : Word) : BitVec 21 :=
  w.extractLsb' 31 1 ++ w.extractLsb' 12 8 ++ w.extractLsb' 20 1 ++ w.extractLsb' 21 10 ++ 0#1

/-! ## 32-bit immediates: extension of a field (R13, R77) -/

/-- sext_12, for immI and immS. -/
def sext12 (imm : BitVec 12) : Word := imm.signExtend 32

/-- sext_13, for immB. -/
def sext13 (imm : BitVec 13) : Word := imm.signExtend 32

/-- sext_21, for immJ. -/
def sext21 (imm : BitVec 21) : Word := imm.signExtend 32

/-- The field over 12 zero bits, for immU (R75). -/
def upper20 (imm : BitVec 20) : Word := imm ++ 0#12

/-- The Decoded Instruction (spec/00_scope.md R15, R17): every field and all five 32-bit immediates of one word,
whichever instruction it is (R71, R77). -/
structure Decoded where
  opcode : BitVec 7
  rd : RegIdx
  funct3 : BitVec 3
  rs1 : RegIdx
  rs2 : RegIdx
  funct7 : BitVec 7
  immI : Word
  immS : Word
  immB : Word
  immU : Word
  immJ : Word
deriving DecidableEq, Repr

/-- The fields and immediates of a word (R71 to R77). -/
def fieldsOf (w : Word) : Decoded :=
  { opcode := opcodeOf w, rd := rdOf w, funct3 := funct3Of w, rs1 := rs1Of w, rs2 := rs2Of w, funct7 := funct7Of w,
    immI := sext12 (immIField w), immS := sext12 (immSField w), immB := sext13 (immBField w),
    immU := upper20 (immUField w), immJ := sext21 (immJField w) }

/-! ## The decoder -/

/-- The opcode class a 7-bit opcode selects, if any (R81, R91). -/
def classOf (op : BitVec 7) : Option OpClass :=
  if op = 0b0110111#7 then some .lui
  else if op = 0b0010111#7 then some .auipc
  else if op = 0b1101111#7 then some .jal
  else if op = 0b1100111#7 then some .jalr
  else if op = 0b1100011#7 then some .branch
  else if op = 0b0000011#7 then some .load
  else if op = 0b0100011#7 then some .store
  else if op = 0b0010011#7 then some .imm
  else if op = 0b0110011#7 then some .op
  else if op = 0b0001111#7 then some .miscmem
  else if op = 0b1110011#7 then some .system
  else none

/-- BRANCH by funct3 (R82). -/
def decodeBranch (f3 : BitVec 3) (rs1 rs2 : RegIdx) (imm : BitVec 13) : Option Instr :=
  if f3 = 0b000#3 then some (.beq rs1 rs2 imm)
  else if f3 = 0b001#3 then some (.bne rs1 rs2 imm)
  else if f3 = 0b100#3 then some (.blt rs1 rs2 imm)
  else if f3 = 0b101#3 then some (.bge rs1 rs2 imm)
  else if f3 = 0b110#3 then some (.bltu rs1 rs2 imm)
  else if f3 = 0b111#3 then some (.bgeu rs1 rs2 imm)
  else none

/-- LOAD by funct3 (R83). -/
def decodeLoad (f3 : BitVec 3) (rd rs1 : RegIdx) (imm : BitVec 12) : Option Instr :=
  if f3 = 0b000#3 then some (.lb rd rs1 imm)
  else if f3 = 0b001#3 then some (.lh rd rs1 imm)
  else if f3 = 0b010#3 then some (.lw rd rs1 imm)
  else if f3 = 0b100#3 then some (.lbu rd rs1 imm)
  else if f3 = 0b101#3 then some (.lhu rd rs1 imm)
  else none

/-- STORE by funct3 (R84). -/
def decodeStore (f3 : BitVec 3) (rs1 rs2 : RegIdx) (imm : BitVec 12) : Option Instr :=
  if f3 = 0b000#3 then some (.sb rs1 rs2 imm)
  else if f3 = 0b001#3 then some (.sh rs1 rs2 imm)
  else if f3 = 0b010#3 then some (.sw rs1 rs2 imm)
  else none

/-- IMM by funct3, and by funct7 for the shifts, whose amount is w[24:20] (R80, R85). -/
def decodeImm (f3 : BitVec 3) (f7 : BitVec 7) (rd rs1 : RegIdx) (imm : BitVec 12) (shamt : BitVec 5) : Option Instr :=
  if f3 = 0b000#3 then some (.addi rd rs1 imm)
  else if f3 = 0b010#3 then some (.slti rd rs1 imm)
  else if f3 = 0b011#3 then some (.sltiu rd rs1 imm)
  else if f3 = 0b100#3 then some (.xori rd rs1 imm)
  else if f3 = 0b110#3 then some (.ori rd rs1 imm)
  else if f3 = 0b111#3 then some (.andi rd rs1 imm)
  else if f3 = 0b001#3 then
    if f7 = 0b0000000#7 then some (.slli rd rs1 shamt) else none
  else
    if f7 = 0b0000000#7 then some (.srli rd rs1 shamt)
    else if f7 = 0b0100000#7 then some (.srai rd rs1 shamt)
    else none

/-- OP by funct7 and funct3 (R86). -/
def decodeOp (f3 : BitVec 3) (f7 : BitVec 7) (rd rs1 rs2 : RegIdx) : Option Instr :=
  if f7 = 0b0000000#7 then
    if f3 = 0b000#3 then some (.add rd rs1 rs2)
    else if f3 = 0b001#3 then some (.sll rd rs1 rs2)
    else if f3 = 0b010#3 then some (.slt rd rs1 rs2)
    else if f3 = 0b011#3 then some (.sltu rd rs1 rs2)
    else if f3 = 0b100#3 then some (.xor rd rs1 rs2)
    else if f3 = 0b101#3 then some (.srl rd rs1 rs2)
    else if f3 = 0b110#3 then some (.or rd rs1 rs2)
    else some (.and rd rs1 rs2)
  else if f7 = 0b0100000#7 then
    if f3 = 0b000#3 then some (.sub rd rs1 rs2)
    else if f3 = 0b101#3 then some (.sra rd rs1 rs2)
    else none
  else none

/-- JALR requires funct3 = 000 (R89). -/
def decodeJalr (f3 : BitVec 3) (rd rs1 : RegIdx) (imm : BitVec 12) : Option Instr :=
  if f3 = 0b000#3 then some (.jalr rd rs1 imm) else none

/-- MISCMEM: funct3 = 000 is FENCE, whatever fm, pred, succ, rs1 and rd hold (R87). -/
def decodeMiscmem (w : Word) : Option Instr :=
  if funct3Of w = 0b000#3 then
    some (.fence (w.extractLsb' 28 4) (w.extractLsb' 24 4) (w.extractLsb' 20 4) (rs1Of w) (rdOf w))
  else none

/-- SYSTEM: exactly the word 0x0000_0073 is ECALL (R88, R93). -/
def decodeSystem (w : Word) : Option Instr :=
  if w = 0x00000073#32 then some .ecall else none

/-- The operation of a word whose opcode class is known; none is IllegalInstruction (R90, R92). -/
def decodeIn (c : OpClass) (w : Word) : Option Instr :=
  match c with
  | .lui => some (.lui (rdOf w) (immUField w))
  | .auipc => some (.auipc (rdOf w) (immUField w))
  | .jal => some (.jal (rdOf w) (immJField w))
  | .jalr => decodeJalr (funct3Of w) (rdOf w) (rs1Of w) (immIField w)
  | .branch => decodeBranch (funct3Of w) (rs1Of w) (rs2Of w) (immBField w)
  | .load => decodeLoad (funct3Of w) (rdOf w) (rs1Of w) (immIField w)
  | .store => decodeStore (funct3Of w) (rs1Of w) (rs2Of w) (immSField w)
  | .imm => decodeImm (funct3Of w) (funct7Of w) (rdOf w) (rs1Of w) (immIField w) (rs2Of w)
  | .op => decodeOp (funct3Of w) (funct7Of w) (rdOf w) (rs1Of w) (rs2Of w)
  | .miscmem => decodeMiscmem w
  | .system => decodeSystem w

/-- Decode(w) of R90: the opcode is examined first, so an unknown opcode is reported before anything else (R245). -/
def decodeWord (w : Word) : Except ErrorKind Instr :=
  match classOf (opcodeOf w) with
  | none => .error .unknownOpcode
  | some c =>
    match decodeIn c w with
    | none => .error .illegalInstruction
    | some i => .ok i

/-- Why a list of bytes is no instruction: the word's own error, or fewer than the 4 bytes every instruction has (R70).
The second never arises in the machine, whose fetch always reads 4 bytes (R45). -/
inductive DecodeReject where
  | error (k : ErrorKind)
  | truncated
deriving DecidableEq, Repr

/-- The instruction at the head of a list of bytes, and the bytes after it. -/
def decodeBytes : List Byte → Except DecodeReject (Instr × List Byte)
  | b0 :: b1 :: b2 :: b3 :: rest =>
    match decodeWord (wordOfBytes [b0, b1, b2, b3]) with
    | .ok i => .ok (i, rest)
    | .error k => .error (.error k)
  | _ => .error .truncated

/-- What the decoder reads from an instruction numbered as spec/opcode_table.json numbers it: bits at and above `nbits`
are 0, and the word is laid out in memory order before it is decoded. -/
def decodeTableWord (nbits w : Nat) : Option Instr :=
  match decodeBytes (bytesOfWord 4 (BitVec.ofNat 32 (w % 2 ^ nbits))) with
  | .ok (i, _) => some i
  | .error _ => none

/-! ## The encoder -/

/-- The opcode of a class (R81). -/
def OpClass.opcode : OpClass → BitVec 7
  | .lui => 0b0110111#7
  | .auipc => 0b0010111#7
  | .jal => 0b1101111#7
  | .jalr => 0b1100111#7
  | .branch => 0b1100011#7
  | .load => 0b0000011#7
  | .store => 0b0100011#7
  | .imm => 0b0010011#7
  | .op => 0b0110011#7
  | .miscmem => 0b0001111#7
  | .system => 0b1110011#7

/-! The layouts of R78. -/

def encodeR (f7 : BitVec 7) (rs2 rs1 : RegIdx) (f3 : BitVec 3) (rd : RegIdx) (c : OpClass) : Word :=
  f7 ++ rs2 ++ rs1 ++ f3 ++ rd ++ c.opcode

def encodeI (imm : BitVec 12) (rs1 : RegIdx) (f3 : BitVec 3) (rd : RegIdx) (c : OpClass) : Word :=
  imm ++ rs1 ++ f3 ++ rd ++ c.opcode

/-- imm[11:5] stands where R has funct7, imm[4:0] where it has rd. -/
def encodeS (imm : BitVec 12) (rs2 rs1 : RegIdx) (f3 : BitVec 3) (c : OpClass) : Word :=
  encodeR (imm.extractLsb' 5 7) rs2 rs1 f3 (imm.extractLsb' 0 5) c

/-- imm[12|10:5] stands where R has funct7, imm[4:1|11] where it has rd. -/
def encodeB (imm : BitVec 13) (rs2 rs1 : RegIdx) (f3 : BitVec 3) (c : OpClass) : Word :=
  encodeR (imm.extractLsb' 12 1 ++ imm.extractLsb' 5 6) rs2 rs1 f3 (imm.extractLsb' 1 4 ++ imm.extractLsb' 11 1) c

def encodeU (imm : BitVec 20) (rd : RegIdx) (c : OpClass) : Word :=
  imm ++ rd ++ c.opcode

/-- imm[20|10:1|11|19:12] stands where U has its immediate. -/
def encodeJ (imm : BitVec 21) (rd : RegIdx) (c : OpClass) : Word :=
  encodeU (imm.extractLsb' 20 1 ++ imm.extractLsb' 1 10 ++ imm.extractLsb' 11 1 ++ imm.extractLsb' 12 8) rd c

/-- The word of a well-formed instruction (R78, R81 to R89). -/
def encode : Instr → Word
  | .lui rd imm => encodeU imm rd .lui
  | .auipc rd imm => encodeU imm rd .auipc
  | .jal rd imm => encodeJ imm rd .jal
  | .jalr rd rs1 imm => encodeI imm rs1 0b000#3 rd .jalr
  | .beq rs1 rs2 imm => encodeB imm rs2 rs1 0b000#3 .branch
  | .bne rs1 rs2 imm => encodeB imm rs2 rs1 0b001#3 .branch
  | .blt rs1 rs2 imm => encodeB imm rs2 rs1 0b100#3 .branch
  | .bge rs1 rs2 imm => encodeB imm rs2 rs1 0b101#3 .branch
  | .bltu rs1 rs2 imm => encodeB imm rs2 rs1 0b110#3 .branch
  | .bgeu rs1 rs2 imm => encodeB imm rs2 rs1 0b111#3 .branch
  | .lb rd rs1 imm => encodeI imm rs1 0b000#3 rd .load
  | .lh rd rs1 imm => encodeI imm rs1 0b001#3 rd .load
  | .lw rd rs1 imm => encodeI imm rs1 0b010#3 rd .load
  | .lbu rd rs1 imm => encodeI imm rs1 0b100#3 rd .load
  | .lhu rd rs1 imm => encodeI imm rs1 0b101#3 rd .load
  | .sb rs1 rs2 imm => encodeS imm rs2 rs1 0b000#3 .store
  | .sh rs1 rs2 imm => encodeS imm rs2 rs1 0b001#3 .store
  | .sw rs1 rs2 imm => encodeS imm rs2 rs1 0b010#3 .store
  | .addi rd rs1 imm => encodeI imm rs1 0b000#3 rd .imm
  | .slti rd rs1 imm => encodeI imm rs1 0b010#3 rd .imm
  | .sltiu rd rs1 imm => encodeI imm rs1 0b011#3 rd .imm
  | .xori rd rs1 imm => encodeI imm rs1 0b100#3 rd .imm
  | .ori rd rs1 imm => encodeI imm rs1 0b110#3 rd .imm
  | .andi rd rs1 imm => encodeI imm rs1 0b111#3 rd .imm
  | .slli rd rs1 shamt => encodeR 0b0000000#7 shamt rs1 0b001#3 rd .imm
  | .srli rd rs1 shamt => encodeR 0b0000000#7 shamt rs1 0b101#3 rd .imm
  | .srai rd rs1 shamt => encodeR 0b0100000#7 shamt rs1 0b101#3 rd .imm
  | .add rd rs1 rs2 => encodeR 0b0000000#7 rs2 rs1 0b000#3 rd .op
  | .sub rd rs1 rs2 => encodeR 0b0100000#7 rs2 rs1 0b000#3 rd .op
  | .sll rd rs1 rs2 => encodeR 0b0000000#7 rs2 rs1 0b001#3 rd .op
  | .slt rd rs1 rs2 => encodeR 0b0000000#7 rs2 rs1 0b010#3 rd .op
  | .sltu rd rs1 rs2 => encodeR 0b0000000#7 rs2 rs1 0b011#3 rd .op
  | .xor rd rs1 rs2 => encodeR 0b0000000#7 rs2 rs1 0b100#3 rd .op
  | .srl rd rs1 rs2 => encodeR 0b0000000#7 rs2 rs1 0b101#3 rd .op
  | .sra rd rs1 rs2 => encodeR 0b0100000#7 rs2 rs1 0b101#3 rd .op
  | .or rd rs1 rs2 => encodeR 0b0000000#7 rs2 rs1 0b110#3 rd .op
  | .and rd rs1 rs2 => encodeR 0b0000000#7 rs2 rs1 0b111#3 rd .op
  | .fence fm pred succ rs1 rd => encodeI (fm ++ pred ++ succ) rs1 0b000#3 rd .miscmem
  | .ecall => encodeI 0#12 0#5 0b000#3 0#5 .system

/-- The bytes of an instruction in memory order (R70, R48). -/
def encodeBytes (i : Instr) : List Byte := bytesOfWord 4 (encode i)

/-! ## Syntax-level views: the class, the destination, the data access of an instruction -/

/-- The opcode class of an instruction (R81). -/
def Instr.opClass : Instr → OpClass
  | .lui _ _ => .lui
  | .auipc _ _ => .auipc
  | .jal _ _ => .jal
  | .jalr _ _ _ => .jalr
  | .beq _ _ _ | .bne _ _ _ | .blt _ _ _ | .bge _ _ _ | .bltu _ _ _ | .bgeu _ _ _ => .branch
  | .lb _ _ _ | .lh _ _ _ | .lw _ _ _ | .lbu _ _ _ | .lhu _ _ _ => .load
  | .sb _ _ _ | .sh _ _ _ | .sw _ _ _ => .store
  | .addi _ _ _ | .slti _ _ _ | .sltiu _ _ _ | .xori _ _ _ | .ori _ _ _ | .andi _ _ _ => .imm
  | .slli _ _ _ | .srli _ _ _ | .srai _ _ _ => .imm
  | .add _ _ _ | .sub _ _ _ | .sll _ _ _ | .slt _ _ _ | .sltu _ _ _ => .op
  | .xor _ _ _ | .srl _ _ _ | .sra _ _ _ | .or _ _ _ | .and _ _ _ => .op
  | .fence _ _ _ _ _ => .miscmem
  | .ecall => .system

/-- The register write-back names, for the classes that write one (spec/40_datapath.md R114). -/
def Instr.dest : Instr → Option RegIdx
  | .lui rd _ | .auipc rd _ | .jal rd _ | .jalr rd _ _ => some rd
  | .lb rd _ _ | .lh rd _ _ | .lw rd _ _ | .lbu rd _ _ | .lhu rd _ _ => some rd
  | .addi rd _ _ | .slti rd _ _ | .sltiu rd _ _ | .xori rd _ _ | .ori rd _ _ | .andi rd _ _ => some rd
  | .slli rd _ _ | .srli rd _ _ | .srai rd _ _ => some rd
  | .add rd _ _ | .sub rd _ _ | .sll rd _ _ | .slt rd _ _ | .sltu rd _ _ => some rd
  | .xor rd _ _ | .srl rd _ _ | .sra rd _ _ | .or rd _ _ | .and rd _ _ => some rd
  | .beq _ _ _ | .bne _ _ _ | .blt _ _ _ | .bge _ _ _ | .bltu _ _ _ | .bgeu _ _ _ => none
  | .sb _ _ _ | .sh _ _ _ | .sw _ _ _ | .fence _ _ _ _ _ | .ecall => none

/-- The base register, offset and width in bytes of the one data access of a load or a store (spec/40_datapath.md R113,
spec/44_loads_stores.md R170, R176); no other instruction touches data memory. -/
def Instr.access : Instr → Option (RegIdx × BitVec 12 × Nat)
  | .lb _ rs1 imm | .lbu _ rs1 imm | .sb rs1 _ imm => some (rs1, imm, 1)
  | .lh _ rs1 imm | .lhu _ rs1 imm | .sh rs1 _ imm => some (rs1, imm, 2)
  | .lw _ rs1 imm | .sw rs1 _ imm => some (rs1, imm, 4)
  | .lui _ _ | .auipc _ _ | .jal _ _ | .jalr _ _ _ => none
  | .beq _ _ _ | .bne _ _ _ | .blt _ _ _ | .bge _ _ _ | .bltu _ _ _ | .bgeu _ _ _ => none
  | .addi _ _ _ | .slti _ _ _ | .sltiu _ _ _ | .xori _ _ _ | .ori _ _ _ | .andi _ _ _ => none
  | .slli _ _ _ | .srli _ _ _ | .srai _ _ _ => none
  | .add _ _ _ | .sub _ _ _ | .sll _ _ _ | .slt _ _ _ | .sltu _ _ _ => none
  | .xor _ _ _ | .srl _ _ _ | .sra _ _ _ | .or _ _ _ | .and _ _ _ => none
  | .fence _ _ _ _ _ | .ecall => none

end Sys2Proof
end

