-- ==== Sys2Proof/Machine/Defaults.lean ====
section
/-! DEFINITION. The values of the parameters the spec leaves open (spec/00_scope.md R9), as State.reset takes them. No
statement rests on one of them unless it says so: State.boot takes any values. -/

namespace Sys2Proof.Machine

/-- RESET_PC (R9, R34; the spec's decision D3; log 3). -/
def defaultResetPc : Word := 0x80000000#32

/-- STATUS_REG = 3 and PASS_VALUE = 1, the default convention (R9, R231; the spec's decision D6; log 4). -/
def defaultConvention : Config.Convention := { statusReg := 3#5, passValue := 1#32 }

/-- The alternative convention the spec names: STATUS_REG = 10, PASS_VALUE = 0 (R231, C1). -/
def alternativeConvention : Config.Convention := { statusReg := 10#5, passValue := 0#32 }

/-- INIT_X, the values of x1..x31 right after reset. DESIGN CHOICE: the spec gives none (R34, D4; log 1). -/
def defaultInitX : Vector Word 31 := Vector.replicate 31 0#32

/-- What a byte of the window that no entry of memory lists reads as, the model's INIT_MEM. DESIGN CHOICE: the spec gives
none (R34, D5; log 2). -/
def unlistedByte : Byte := 0#8

end Sys2Proof.Machine
end

