-- ==== Sys2Proof/Machine/State.lean ====
section
/-! DEFINITION. The state of the core and its memory (spec/10_state.md R33), as plain data, and the state right after
reset (R34, spec/70_reset_and_hazards.md R270). -/

namespace Sys2Proof.Machine

/-- The memory of the window (R31) as a sorted list of (physical address, byte). An address that is not listed reads as
`unlistedByte`. -/
abbrev Memory := List Host.Cell

/-- Every listed address is at or above `lo`, addresses rise strictly, each lies in the window, and no entry equals what
an unlisted address reads as. -/
def Memory.wfFrom (lo : Nat) : Memory → Bool
  | [] => true
  | (a, v) :: rest =>
    decide (lo ≤ a) && decide (a < Config.base + Config.capacity) && decide (v ≠ unlistedByte) &&
      Memory.wfFrom (a + 1) rest

/-- The canonical form: two memories in it that read alike at every address are equal. -/
def Memory.wf (m : Memory) : Bool := Memory.wfFrom Config.base m

/-- How a run ended (R28). -/
inductive RunOutcome where
  | pass
  | fail (code : Word)
  | error (kind : ErrorKind)
deriving DecidableEq, Repr

/-- The run state of the cycle driver (R28). -/
inductive RunState where
  | running
  | halted (outcome : RunOutcome)
deriving DecidableEq, Repr

/-- The reasons the machine could stop WITHOUT a next state. There is none: everything this core does, its three fatal
errors among them, is a next state whose run state says so (spec/60_exceptions.md R243, R247; log 5). -/
inductive Fault where
deriving DecidableEq, Repr

/-- The reasons a meaning could be missing. -/
inductive Refusal where
  /-- Raised by `exec`'s arm of an instruction that has no meaning yet; no arm does (safe). -/
  | notModelled (mnemonic : String)
deriving DecidableEq, Repr

/-- The complete state (R33). `x0` is not stored (R21). -/
structure State where
  /-- x1..x31: index i holds x(i+1) -/
  regs : Vector Word 31
  /-- the program counter (R25) -/
  pc : Word
  /-- the memory (R31) -/
  mem : Memory
  /-- RUNNING or HALTED(outcome) (R28) -/
  run : RunState
  /-- the model's own field: the parameters STATUS_REG and PASS_VALUE of R9, which no step changes (log 4) -/
  conv : Config.Convention
deriving DecidableEq, Repr

/-- The open parameters of a reset (R9): INIT_X, INIT_MEM, RESET_PC, STATUS_REG and PASS_VALUE. -/
structure Params where
  initX : Vector Word 31
  initMem : Memory
  resetPc : Word
  conv : Config.Convention
deriving DecidableEq, Repr

/-- Reset under any parameters (R34, R270): a fresh state, RUNNING at RESET_PC. -/
def State.boot (p : Params) : State :=
  { regs := p.initX, pc := p.resetPc, mem := p.initMem, run := .running, conv := p.conv }

/-- The default values of the parameters; INIT_MEM lists nothing. -/
def Params.default : Params :=
  { initX := defaultInitX, initMem := [], resetPc := defaultResetPc, conv := defaultConvention }

/-- The machine right after reset, before the loader runs and before the first cycle (R34, R270). -/
def State.reset : State := State.boot Params.default

end Sys2Proof.Machine
end

