-- ==== Sys2Proof/Machine/Ops.lean ====
section
/-! DEFINITION. The operations every meaning is built from: the register file (spec/10_state.md R21, R22), the memory
primitives (spec/20_memory.md R42 to R47), halting and raising an error (spec/60_exceptions.md R243, R247), and the ways
a cycle can end (spec/40_datapath.md R114, R116, R119). -/

namespace Sys2Proof.Machine

/-- What a meaning and a step answer. -/
abbrev Result := Host.Outcome State Fault Refusal

/-! ## Register file and pc -/

/-- `x[r]`; x0 reads 0 (R21). -/
def State.readReg (s : State) (r : RegIdx) : Word :=
  if r = 0#5 then 0#32 else s.regs[r.toNat - 1]'(by have := r.isLt; omega)

/-- The stored registers after `x[r] <- v`; a write to x0 is discarded (R21, R22). -/
def writeRegs (regs : Vector Word 31) (r : RegIdx) (v : Word) : Vector Word 31 :=
  if r = 0#5 then regs else regs.set (r.toNat - 1) v (by have := r.isLt; omega)

/-- `x[r] <- v`. -/
def State.writeReg (s : State) (r : RegIdx) (v : Word) : State := { s with regs := writeRegs s.regs r v }

/-- `write_pc`: no special case, no alignment (R25, R26). -/
def State.setPc (s : State) (t : Word) : State := { s with pc := t }

/-- The state with another memory. -/
def State.setMem (s : State) (m : Memory) : State := { s with mem := m }

/-! ## Halting and errors -/

/-- `halt(o)`: only the run state changes (R247). -/
def State.halt (s : State) (o : RunOutcome) : State := { s with run := .halted o }

/-- `raise Error(k)`, the one way an error is taken: the cycle is abandoned, so registers, pc and memory keep their values
from before the cycle, and the run state becomes HALTED(Error(k)) (R117, R243). Nothing is saved (R246). There is no
return from it: HALTED is final (R249). -/
def State.raise (s : State) (k : ErrorKind) : State := s.halt (.error k)

/-! ## Bytes of memory -/

/-- The byte at a physical address. -/
def Memory.readByte : Memory → Nat → Byte
  | [], _ => unlistedByte
  | (k, v) :: rest, a => if k = a then v else Memory.readByte rest a

/-- Put an entry in front, unless it equals what an unlisted address reads as. -/
def Memory.consCell (a : Nat) (v : Byte) (m : Memory) : Memory := if v = unlistedByte then m else (a, v) :: m

/-- Write the byte at a physical address, keeping the canonical form. -/
def Memory.writeByte : Memory → Nat → Byte → Memory
  | [], a, v => Memory.consCell a v []
  | (k, u) :: rest, a, v =>
    if a < k then Memory.consCell a v ((k, u) :: rest)
    else if a = k then Memory.consCell a v rest
    else (k, u) :: Memory.writeByte rest a v

/-- The `n` bytes from address `a` up. -/
def Memory.readBytes (m : Memory) (a : Nat) : Nat → List Byte
  | 0 => []
  | n + 1 => m.readByte a :: Memory.readBytes m (a + 1) n

/-- Write bytes from address `a` up. -/
def Memory.writeBytes (m : Memory) (a : Nat) : List Byte → Memory
  | [] => m
  | b :: bs => Memory.writeBytes (m.writeByte a b) (a + 1) bs

/-! ## Checked accesses -/

/-- The widths of a data access (R49). -/
inductive AccessWidth where
  | byte | half | word
deriving DecidableEq, Repr

/-- Width in bytes. -/
def AccessWidth.bytes : AccessWidth → Nat
  | .byte => 1
  | .half => 2
  | .word => 4

/-- InBounds(A, w) over integers: BASE <= u(A) and u(A) + w <= BASE + CAPACITY (R41, R42; the spec's decision D17). -/
def inBounds (a : Word) (w : Nat) : Bool :=
  decide (Config.base ≤ a.toNat) && decide (a.toNat + w ≤ Config.base + Config.capacity)

/-- MemRead(A, n): zero-extended little-endian value, or OutOfBounds (R46). Any alignment (R50). -/
def memRead (m : Memory) (a : Word) (n : AccessWidth) : Except ErrorKind Word :=
  if inBounds a n.bytes then .ok (wordOfBytes (m.readBytes a.toNat n.bytes)) else .error .outOfBounds

/-- MemWrite(A, n, v): the low n bytes of v, little-endian, or OutOfBounds with no byte written (R43, R47). -/
def memWrite (m : Memory) (a : Word) (n : AccessWidth) (v : Word) : Except ErrorKind Memory :=
  if inBounds a n.bytes then .ok (m.writeBytes a.toNat (bytesOfWord n.bytes v)) else .error .outOfBounds

/-- Fetch(A): the 4 bytes at A, little-endian, or OutOfBounds (R45). Any alignment (R51). -/
def fetchWord (m : Memory) (a : Word) : Except ErrorKind Word :=
  if inBounds a 4 then .ok (wordOfBytes (m.readBytes a.toNat 4)) else .error .outOfBounds

/-- The fetch and decode phases of a cycle, in the order of R111: the first failing check is the error (R245). -/
def fetchInstr (s : State) : Except ErrorKind Instr :=
  match fetchWord s.mem s.pc with
  | .error k => .error k
  | .ok w => decodeWord w

/-! ## How a cycle ends -/

/-- The address of the next instruction in line, modulo 2^32 (R26, R116). -/
def State.nextPc (s : State) : Word := s.pc + 4#32

/-- Write-back of an ALU result, then pc + 4 (R114, R116). -/
def retire (s : State) (rd : RegIdx) (v : Word) : Result := .next ((s.writeReg rd v).setPc s.nextPc)

/-- Nothing but pc + 4 (R116). -/
def advance (s : State) : Result := .next (s.setPc s.nextPc)

/-- Write the link pc + 4, then go to the target (R114, R116). -/
def jump (s : State) (rd : RegIdx) (target : Word) : Result := .next ((s.writeReg rd s.nextPc).setPc target)

/-- A branch to pc + offset if taken, else pc + 4 (spec/43_branches.md R160). -/
def branch (s : State) (taken : Bool) (offset : Word) : Result :=
  .next (s.setPc (if taken then s.pc + offset else s.nextPc))

/-- A load: read, extend, write back; an error is taken before anything is written (spec/44_loads_stores.md R170). -/
def load (s : State) (n : AccessWidth) (ext : Word → Word) (rd : RegIdx) (ea : Word) : Result :=
  match memRead s.mem ea n with
  | .ok v => retire s rd (ext v)
  | .error k => .next (s.raise k)

/-- A store: write memory and nothing else; an error is taken before any byte is written (R176). -/
def store (s : State) (n : AccessWidth) (ea v : Word) : Result :=
  match memWrite s.mem ea n v with
  | .ok m => .next ((s.setMem m).setPc s.nextPc)
  | .error k => .next (s.raise k)

end Sys2Proof.Machine
end

