-- ==== Sys2Proof/Machine/Flags.lean ====
section
/-! DEFINITION. The core has no flags (spec/10_state.md R27): a comparison is read at once by a branch or written as 0 or 1
to a register. These are the comparisons (spec/00_scope.md R12). -/

namespace Sys2Proof.Machine

/-- `a = b`, as bit patterns. -/
def isEq (a b : Word) : Bool := a == b

/-- `a <s b`. -/
def isLtSigned (a b : Word) : Bool := a.slt b

/-- `a <u b`. -/
def isLtUnsigned (a b : Word) : Bool := a.ult b

/-- `c ? 1 : 0`. -/
def boolWord (c : Bool) : Word := if c then 1#32 else 0#32

end Sys2Proof.Machine
end

