-- ==== Sys2Proof/Machine/Operands.lean ====
section
/-! DEFINITION. Operand forms: effective addresses, jump targets, shift amounts, and the extension of a loaded value. -/

namespace Sys2Proof.Machine

/-- Base plus offset, modulo 2^32, for loads (immI) and stores (immS) (spec/44_loads_stores.md R170, R176). -/
def effectiveAddress (s : State) (rs1 : RegIdx) (imm : BitVec 12) : Word := s.readReg rs1 + sext12 imm

/-- JAL's target (spec/42_jumps.md R150). -/
def jalTarget (s : State) (imm : BitVec 21) : Word := s.pc + sext21 imm

/-- JALR's target: the sum with bit 0 forced to 0 (spec/42_jumps.md R151, C4). -/
def jalrTarget (s : State) (rs1 : RegIdx) (imm : BitVec 12) : Word := (s.readReg rs1 + sext12 imm) &&& 0xFFFFFFFE#32

/-- The shift amount of SLL, SRL and SRA: the low 5 bits of x[rs2] (spec/30_encoding.md R80). -/
def shiftAmount (v : Word) : Nat := (v.extractLsb' 0 5).toNat

/-- sext_8 (spec/00_scope.md R13). -/
def sextByte (v : Word) : Word := (v.extractLsb' 0 8).signExtend 32

/-- sext_16. -/
def sextHalf (v : Word) : Word := (v.extractLsb' 0 16).signExtend 32

/-- zext_8. -/
def zextByte (v : Word) : Word := (v.extractLsb' 0 8).setWidth 32

/-- zext_16. -/
def zextHalf (v : Word) : Word := (v.extractLsb' 0 16).setWidth 32

/-- LW needs no extension (R173). -/
def wholeWord (v : Word) : Word := v

end Sys2Proof.Machine
end

