-- ==== Sys2Proof/Machine/AluImm.lean ====
section
/-! DEFINITION. The IMM class (spec/45_alu_immediate.md), over the scheme of R190. -/

namespace Sys2Proof.Machine

/-- R191. -/
def execAddi (rd rs1 : RegIdx) (imm : BitVec 12) (s : State) : Result :=
  retire s rd (s.readReg rs1 + sext12 imm)

/-- R192. -/
def execSlti (rd rs1 : RegIdx) (imm : BitVec 12) (s : State) : Result :=
  retire s rd (boolWord (isLtSigned (s.readReg rs1) (sext12 imm)))

/-- R193. -/
def execSltiu (rd rs1 : RegIdx) (imm : BitVec 12) (s : State) : Result :=
  retire s rd (boolWord (isLtUnsigned (s.readReg rs1) (sext12 imm)))

/-- R194. -/
def execXori (rd rs1 : RegIdx) (imm : BitVec 12) (s : State) : Result :=
  retire s rd (s.readReg rs1 ^^^ sext12 imm)

/-- R195. -/
def execOri (rd rs1 : RegIdx) (imm : BitVec 12) (s : State) : Result :=
  retire s rd (s.readReg rs1 ||| sext12 imm)

/-- R196. -/
def execAndi (rd rs1 : RegIdx) (imm : BitVec 12) (s : State) : Result :=
  retire s rd (s.readReg rs1 &&& sext12 imm)

/-- R197. -/
def execSlli (rd rs1 : RegIdx) (shamt : BitVec 5) (s : State) : Result :=
  retire s rd (s.readReg rs1 <<< shamt.toNat)

/-- R198. -/
def execSrli (rd rs1 : RegIdx) (shamt : BitVec 5) (s : State) : Result :=
  retire s rd (s.readReg rs1 >>> shamt.toNat)

/-- R199. -/
def execSrai (rd rs1 : RegIdx) (shamt : BitVec 5) (s : State) : Result :=
  retire s rd ((s.readReg rs1).sshiftRight shamt.toNat)

end Sys2Proof.Machine
end

