-- ==== Sys2Proof/Machine/AluReg.lean ====
section
/-! DEFINITION. The OP class (spec/46_alu_register.md), over the scheme of R210. -/

namespace Sys2Proof.Machine

/-- R211. -/
def execAdd (rd rs1 rs2 : RegIdx) (s : State) : Result :=
  retire s rd (s.readReg rs1 + s.readReg rs2)

/-- R212. -/
def execSub (rd rs1 rs2 : RegIdx) (s : State) : Result :=
  retire s rd (s.readReg rs1 - s.readReg rs2)

/-- R213. -/
def execSll (rd rs1 rs2 : RegIdx) (s : State) : Result :=
  retire s rd (s.readReg rs1 <<< shiftAmount (s.readReg rs2))

/-- R214. -/
def execSlt (rd rs1 rs2 : RegIdx) (s : State) : Result :=
  retire s rd (boolWord (isLtSigned (s.readReg rs1) (s.readReg rs2)))

/-- R215. -/
def execSltu (rd rs1 rs2 : RegIdx) (s : State) : Result :=
  retire s rd (boolWord (isLtUnsigned (s.readReg rs1) (s.readReg rs2)))

/-- R216. -/
def execXor (rd rs1 rs2 : RegIdx) (s : State) : Result :=
  retire s rd (s.readReg rs1 ^^^ s.readReg rs2)

/-- R217. -/
def execSrl (rd rs1 rs2 : RegIdx) (s : State) : Result :=
  retire s rd (s.readReg rs1 >>> shiftAmount (s.readReg rs2))

/-- R218. -/
def execSra (rd rs1 rs2 : RegIdx) (s : State) : Result :=
  retire s rd ((s.readReg rs1).sshiftRight (shiftAmount (s.readReg rs2)))

/-- R219. -/
def execOr (rd rs1 rs2 : RegIdx) (s : State) : Result :=
  retire s rd (s.readReg rs1 ||| s.readReg rs2)

/-- R220. -/
def execAnd (rd rs1 rs2 : RegIdx) (s : State) : Result :=
  retire s rd (s.readReg rs1 &&& s.readReg rs2)

end Sys2Proof.Machine
end

