-- ==== Sys2Proof/Machine/Branches.lean ====
section
/-! DEFINITION. The six conditional branches (spec/43_branches.md), over the scheme of R160. -/

namespace Sys2Proof.Machine

/-- R161: taken if x[rs1] = x[rs2]. -/
def execBeq (rs1 rs2 : RegIdx) (imm : BitVec 13) (s : State) : Result :=
  branch s (isEq (s.readReg rs1) (s.readReg rs2)) (sext13 imm)

/-- R162: taken if x[rs1] ≠ x[rs2]. -/
def execBne (rs1 rs2 : RegIdx) (imm : BitVec 13) (s : State) : Result :=
  branch s (!isEq (s.readReg rs1) (s.readReg rs2)) (sext13 imm)

/-- R163: taken if x[rs1] <s x[rs2]. -/
def execBlt (rs1 rs2 : RegIdx) (imm : BitVec 13) (s : State) : Result :=
  branch s (isLtSigned (s.readReg rs1) (s.readReg rs2)) (sext13 imm)

/-- R164: taken if not (x[rs1] <s x[rs2]). -/
def execBge (rs1 rs2 : RegIdx) (imm : BitVec 13) (s : State) : Result :=
  branch s (!isLtSigned (s.readReg rs1) (s.readReg rs2)) (sext13 imm)

/-- R165: taken if x[rs1] <u x[rs2]. -/
def execBltu (rs1 rs2 : RegIdx) (imm : BitVec 13) (s : State) : Result :=
  branch s (isLtUnsigned (s.readReg rs1) (s.readReg rs2)) (sext13 imm)

/-- R166: taken if not (x[rs1] <u x[rs2]). -/
def execBgeu (rs1 rs2 : RegIdx) (imm : BitVec 13) (s : State) : Result :=
  branch s (!isLtUnsigned (s.readReg rs1) (s.readReg rs2)) (sext13 imm)

end Sys2Proof.Machine
end

