-- ==== Sys2Proof/Machine/Jumps.lean ====
section
/-! DEFINITION. JAL and JALR (spec/42_jumps.md). No alignment check on the target (R51; the spec's decision D15). -/

namespace Sys2Proof.Machine

/-- R150: link pc + 4, go to pc + immJ. -/
def execJal (rd : RegIdx) (imm : BitVec 21) (s : State) : Result :=
  jump s rd (jalTarget s imm)

/-- R151: link pc + 4, go to x[rs1] + immI with bit 0 cleared; x[rs1] is read before the link is written (R112). -/
def execJalr (rd rs1 : RegIdx) (imm : BitVec 12) (s : State) : Result :=
  jump s rd (jalrTarget s rs1 imm)

end Sys2Proof.Machine
end

