-- ==== Sys2Proof/Machine/LoadStore.lean ====
section
/-! DEFINITION. Loads and stores (spec/44_loads_stores.md), over the schemes of R170 and R176. Any alignment (R50). -/

namespace Sys2Proof.Machine

/-- R171. -/
def execLb (rd rs1 : RegIdx) (imm : BitVec 12) (s : State) : Result :=
  load s .byte sextByte rd (effectiveAddress s rs1 imm)

/-- R172. -/
def execLh (rd rs1 : RegIdx) (imm : BitVec 12) (s : State) : Result :=
  load s .half sextHalf rd (effectiveAddress s rs1 imm)

/-- R173. -/
def execLw (rd rs1 : RegIdx) (imm : BitVec 12) (s : State) : Result :=
  load s .word wholeWord rd (effectiveAddress s rs1 imm)

/-- R174. -/
def execLbu (rd rs1 : RegIdx) (imm : BitVec 12) (s : State) : Result :=
  load s .byte zextByte rd (effectiveAddress s rs1 imm)

/-- R175. -/
def execLhu (rd rs1 : RegIdx) (imm : BitVec 12) (s : State) : Result :=
  load s .half zextHalf rd (effectiveAddress s rs1 imm)

/-- R177. -/
def execSb (rs1 rs2 : RegIdx) (imm : BitVec 12) (s : State) : Result :=
  store s .byte (effectiveAddress s rs1 imm) (s.readReg rs2)

/-- R178. -/
def execSh (rs1 rs2 : RegIdx) (imm : BitVec 12) (s : State) : Result :=
  store s .half (effectiveAddress s rs1 imm) (s.readReg rs2)

/-- R179. -/
def execSw (rs1 rs2 : RegIdx) (imm : BitVec 12) (s : State) : Result :=
  store s .word (effectiveAddress s rs1 imm) (s.readReg rs2)

end Sys2Proof.Machine
end

