-- ==== Sys2Proof/Machine/System.lean ====
section
/-! DEFINITION. FENCE and ECALL (spec/47_misc_system.md). -/

namespace Sys2Proof.Machine

/-- The outcome ECALL decides from the status value: Pass at PASS_VALUE, else Fail with the value itself, 0 among them
(R231; the spec's decision D7). -/
def ecallOutcome (c : Config.Convention) (v : Word) : RunOutcome := if v = c.passValue then .pass else .fail v

/-- R230: only pc advances; every field is ignored (R87). -/
def execFence (_fm _pred _succ : BitVec 4) (_rs1 _rd : RegIdx) (s : State) : Result :=
  advance s

/-- R231: halt with Pass or Fail by the status register; pc keeps this ECALL's address (the spec's decision D8). -/
def execEcall (s : State) : Result :=
  .next (s.halt (ecallOutcome s.conv (s.readReg s.conv.statusReg)))

end Sys2Proof.Machine
end

