-- ==== Sys2Proof/Machine/Upper.lean ====
section
/-! DEFINITION. LUI and AUIPC (spec/41_upper_immediate.md). -/

namespace Sys2Proof.Machine

/-- R140: x[rd] <- immU. -/
def execLui (rd : RegIdx) (imm : BitVec 20) (s : State) : Result :=
  retire s rd (upper20 imm)

/-- R141: x[rd] <- pc + immU, with the address of this AUIPC. -/
def execAuipc (rd : RegIdx) (imm : BitVec 20) (s : State) : Result :=
  retire s rd (s.pc + upper20 imm)

end Sys2Proof.Machine
end

