-- ==== Sys2Proof/Machine/Step.lean ====
section
/-! DEFINITION. One step is one whole cycle of the core (spec/40_datapath.md R119). -/

namespace Sys2Proof.Machine

/-- Cycle(S): a halted core changes nothing (R118); a running one fetches, decodes and executes, and the first error of
these phases ends the cycle with nothing committed (R117, R245). -/
def step (s : State) : Host.Outcome State Fault Refusal :=
  match s.run with
  | .halted _ => .next s
  | .running =>
    match fetchInstr s with
    | .error k => .next (s.raise k)
    | .ok i => exec i s

/-- `s` with the instruction word `w` (bits at and above `nbits` zero) at its pc, and RUNNING, which the fetch needs.
Where the 4 bytes at pc do not lie in the window there is no memory to hold it, and memory stays as it is. -/
def State.withFetchWord (s : State) (nbits w : Nat) : State :=
  { s with
    mem := if inBounds s.pc 4 then s.mem.writeBytes s.pc.toNat (bytesOfWord 4 (BitVec.ofNat 32 (w % 2 ^ nbits))) else s.mem
    run := .running }

end Sys2Proof.Machine
end

