-- ==== Sys2Proof/Machine/Ports.lean ====
section
/-! DEFINITION. What the host can do to the core, at transaction level (spec/40_datapath.md R121 to R127; the spec's
decision D2): load segments before the first step, step, read the status, take a snapshot, and stop stepping. The memory
port's three transactions (R123) are `fetchWord`, `memRead` and `memWrite` of Ops.lean. -/

namespace Sys2Proof.Machine

/-! ## Loader port (R124) -/

/-- One `(physical_address, bytes)` pair. -/
abbrev Segment := Word × List Byte

/-- LoadSegment (spec/20_memory.md R53): the whole segment or, if it does not fit, no byte of it. -/
def loadSegment (m : Memory) (seg : Segment) : Except ErrorKind Memory :=
  if inBounds seg.1 seg.2.length then .ok (m.writeBytes seg.1.toNat seg.2) else .error .outOfBounds

/-- The segments in the order given, later bytes over earlier ones; the first that fails ends the run, with the bytes of
the earlier ones in place and no later one loaded (R53, spec/70_reset_and_hazards.md R273; the spec's decision D18). -/
def loadSegments : List Segment → State → State
  | [], s => s
  | seg :: rest, s =>
    match loadSegment s.mem seg with
    | .ok m => loadSegments rest (s.setMem m)
    | .error k => s.raise k

/-- Boot order, steps 1 and 2 (R271): reset, then load. -/
def launch (p : Params) (segs : List Segment) : State := loadSegments segs (State.boot p)

/-! ## Step and status ports (R121, R122) -/

/-- What the step port answers. -/
inductive StepReply where
  | continueRun
  | halted (outcome : RunOutcome)
deriving DecidableEq, Repr

/-- The status port: `(halted, outcome)`, no outcome while RUNNING (R28, R122). -/
def statusPort (s : State) : Bool × Option RunOutcome :=
  match s.run with
  | .running => (false, none)
  | .halted o => (true, some o)

/-- The reply after a step that led to `s` (R121). -/
def replyOf (s : State) : StepReply :=
  match s.run with
  | .running => .continueRun
  | .halted o => .halted o

/-- One step as a state: `step` always answers a next state on this core; the other arms have no value to meet. -/
def cycle (s : State) : State :=
  match step s with
  | .next t => t
  | .fault _ => s
  | .refused _ => s

/-- The step port (R121): the new state and the reply. -/
def stepPort (s : State) : State × StepReply := (cycle s, replyOf (cycle s))

/-- The host steps until the core halts or INSN_LIMIT steps are done; a run cut off stays RUNNING (R125, R128; the spec's
decision D19). -/
def runLimited : Nat → State → State
  | 0, s => s
  | n + 1, s =>
    match (stepPort s).2 with
    | .halted _ => (stepPort s).1
    | .continueRun => runLimited n (stepPort s).1

/-! ## Snapshot port (R126): reads only -/

def snapshotReg (s : State) (r : RegIdx) : Word := s.readReg r
def snapshotPc (s : State) : Word := s.pc
def snapshotRun (s : State) : RunState := s.run

/-- Byte `mem[i]`, the byte at physical address BASE + i (spec/10_state.md R31). -/
def snapshotByte (s : State) (i : Fin Config.capacity) : Byte := s.mem.readByte (Config.base + i.val)

end Sys2Proof.Machine
end

