-- ==== Sys2Proof/Safety.lean ====
section
/-! DEFINITION. The terms claims about runs use: the states a run passes through, and how it ends. -/

namespace Sys2Proof.Safety

open Sys2Proof.Machine

/-- The invariant of the machine: memory is in its canonical form, so it lists only bytes of the window (R31, R33). -/
def MachineInv (s : State) : Prop := s.mem.wf = true

/-- The parameters of a reset describe a memory of the window. -/
def ParamsOk (p : Params) : Prop := p.initMem.wf = true

/-- The states of a run (R271): reset under some parameters, any segments loaded, then any number of steps. -/
inductive Reachable : State → Prop where
  | launched (p : Params) (segs : List Segment) (hp : ParamsOk p) : Reachable (launch p segs)
  | stepped (s t : State) (hs : Reachable s) (h : step s = .next t) : Reachable t

/-- A run has ended when its run state is HALTED (R128). -/
def Ended (s : State) : Prop := s.run ≠ .running

/-- The run ends with this outcome, after some number of steps (R128). -/
def EndsWith (s : State) (o : RunOutcome) : Prop := ∃ n, (runLimited n s).run = .halted o

/-- A safe run: no state it reaches has ended in an error (R240, R243: Error means the core could not go on). -/
def ErrorFree (s : State) : Prop := ∀ n k, (runLimited n s).run ≠ .halted (.error k)

end Sys2Proof.Safety
end

