-- ==== Sys2Proof/Certificates/Slice0/Obligations.lean ====
section
/-! DEFINITION. The statements for the provers, with the few predicates they are written in (namespace Claims). Results are
written in the spec's own terms (spec/00_scope.md R10 to R13), not through the model's meanings. "Dn" is a decision of
spec/92_eei_decisions.md, "log n" is notes/assumptions/n.md. -/

namespace Sys2Proof.Claims

open Sys2Proof Sys2Proof.Machine

/-! ## Frames -/

/-- Every register reads as before. -/
def SameRegs (s t : State) : Prop := ∀ r : RegIdx, t.readReg r = s.readReg r

/-- Register `rd` reads `v`, unless it is x0, whose write is discarded (R21); every other register reads as before. -/
def RegWritten (s t : State) (rd : RegIdx) (v : Word) : Prop :=
  ∀ r : RegIdx, t.readReg r = if r = rd ∧ r ≠ 0#5 then v else s.readReg r

/-- Every byte of memory reads as before. -/
def SameMemory (s t : State) : Prop := ∀ a : Nat, t.mem.readByte a = s.mem.readByte a

/-- The `n` bytes from address `ea` up are the low bytes of `v`, little-endian; every other byte reads as before (R47). -/
def BytesWritten (m m' : Memory) (ea n : Nat) (v : Word) : Prop :=
  (∀ k, k < n → m'.readByte (ea + k) = v.extractLsb' (8 * k) 8) ∧
    ∀ a, a < ea ∨ ea + n ≤ a → m'.readByte a = m.readByte a

/-- The run state and the ECALL convention are unchanged. -/
def SameControl (s t : State) : Prop := t.run = s.run ∧ t.conv = s.conv

/-! ## What an instruction does -/

/-- `exec` answers a next state in which `rd` is written with `v`, pc is `next`, and nothing else changes. -/
def Writes (i : Instr) (s : State) (rd : RegIdx) (v next : Word) : Prop :=
  ∃ t, exec i s = .next t ∧ RegWritten s t rd v ∧ t.pc = next ∧ SameMemory s t ∧ SameControl s t

/-- `exec` answers a next state in which pc is `next` and nothing else changes. -/
def Goes (i : Instr) (s : State) (next : Word) : Prop :=
  ∃ t, exec i s = .next t ∧ SameRegs s t ∧ t.pc = next ∧ SameMemory s t ∧ SameControl s t

/-- `exec` answers a next state in which the low `n` bytes of `v` are stored from `ea` up, pc is pc + 4, and nothing else
changes. -/
def Stores (i : Instr) (s : State) (ea : Word) (n : Nat) (v : Word) : Prop :=
  ∃ t, exec i s = .next t ∧ SameRegs s t ∧ t.pc = s.pc + 4#32 ∧ BytesWritten s.mem t.mem ea.toNat n v ∧ SameControl s t

/-- `exec` answers a next state that differs in the run state alone, which is HALTED(o). -/
def Stops (i : Instr) (s : State) (o : RunOutcome) : Prop := exec i s = .next { s with run := .halted o }

/-- Byte `k` counted from address `ea`. -/
def byteAt (s : State) (ea : Word) (k : Nat) : Byte := s.mem.readByte (ea.toNat + k)

/-- The 4 bytes at `ea`, little-endian (R45). -/
def wordAt (s : State) (ea : Word) : Word := byteAt s ea 3 ++ byteAt s ea 2 ++ byteAt s ea 1 ++ byteAt s ea 0

/-! ## Words, bit by bit (R71) -/

def opcode (w : Word) : BitVec 7 := w.extractLsb' 0 7
def funct3 (w : Word) : BitVec 3 := w.extractLsb' 12 3
def funct7 (w : Word) : BitVec 7 := w.extractLsb' 25 7

/-- The 11 opcode values of R81. -/
def knownOpcodes : List (BitVec 7) :=
  [0x37#7, 0x17#7, 0x6F#7, 0x67#7, 0x63#7, 0x03#7, 0x23#7, 0x13#7, 0x33#7, 0x0F#7, 0x73#7]

/-- The funct3 values that go with funct7 = 0100000 under OP (R86). -/
def altOpFunct3 : List (BitVec 3) := [0b000#3, 0b101#3]

/-- The list of R92. -/
def IllegalWord (w : Word) : Prop :=
  (opcode w = 0x67#7 ∧ funct3 w ≠ 0b000#3) ∨
  (opcode w = 0x63#7 ∧ funct3 w ∈ [0b010#3, 0b011#3]) ∨
  (opcode w = 0x03#7 ∧ funct3 w ∈ [0b011#3, 0b110#3, 0b111#3]) ∨
  (opcode w = 0x23#7 ∧ funct3 w ∈ [0b011#3, 0b100#3, 0b101#3, 0b110#3, 0b111#3]) ∨
  (opcode w = 0x13#7 ∧ funct3 w = 0b001#3 ∧ funct7 w ≠ 0b0000000#7) ∨
  (opcode w = 0x13#7 ∧ funct3 w = 0b101#3 ∧ funct7 w ∉ [0b0000000#7, 0b0100000#7]) ∨
  (opcode w = 0x33#7 ∧ ¬ (funct7 w = 0b0000000#7 ∨ (funct7 w = 0b0100000#7 ∧ funct3 w ∈ altOpFunct3))) ∨
  (opcode w = 0x0F#7 ∧ funct3 w ≠ 0b000#3) ∨
  (opcode w = 0x73#7 ∧ w ≠ 0x00000073#32)

/-- The address a load or store word accesses: x[w[19:15]] plus immI for a load, immS for a store (R72, R73, R170, R176). -/
def wordAddress (s : State) (w : Word) : Word :=
  s.readReg (w.extractLsb' 15 5) +
    (if opcode w = 0x03#7 then (w.extractLsb' 20 12).signExtend 32
     else (w.extractLsb' 25 7 ++ w.extractLsb' 7 5 : BitVec 12).signExtend 32)

/-- Its width: 1, 2 or 4 bytes by the low two bits of funct3 (R83, R84). -/
def wordWidth (w : Word) : Nat := 2 ^ (w.extractLsb' 12 2).toNat

/-- The word is a load or store and its bytes do not all lie in the window. -/
def DataOutOfBounds (s : State) (w : Word) : Prop :=
  (opcode w = 0x03#7 ∨ opcode w = 0x23#7) ∧ inBounds (wordAddress s w) (wordWidth w) = false

/-- The error that the checks of R245, in their order, report for the instruction at pc. -/
def FirstError (s : State) (k : ErrorKind) : Prop :=
  (inBounds s.pc 4 = false ∧ k = .outOfBounds) ∨
  (inBounds s.pc 4 = true ∧ opcode (wordAt s s.pc) ∉ knownOpcodes ∧ k = .unknownOpcode) ∨
  (inBounds s.pc 4 = true ∧ opcode (wordAt s s.pc) ∈ knownOpcodes ∧ IllegalWord (wordAt s s.pc) ∧
    k = .illegalInstruction) ∨
  (inBounds s.pc 4 = true ∧ opcode (wordAt s s.pc) ∈ knownOpcodes ∧ ¬ IllegalWord (wordAt s s.pc) ∧
    DataOutOfBounds s (wordAt s s.pc) ∧ k = .outOfBounds)

/-! ## The immediate an instruction uses (R78) -/

/-- The 32-bit immediate of an instruction; none for OP, MISCMEM and SYSTEM, and none for the immediate shifts, which use
immI[4:0] (R80). -/
def immediateOf : Instr → Option Word
  | .lui _ imm | .auipc _ imm => some (imm ++ 0#12)
  | .jal _ imm => some (imm.signExtend 32)
  | .jalr _ _ imm => some (imm.signExtend 32)
  | .beq _ _ imm | .bne _ _ imm | .blt _ _ imm | .bge _ _ imm | .bltu _ _ imm | .bgeu _ _ imm =>
    some (imm.signExtend 32)
  | .lb _ _ imm | .lh _ _ imm | .lw _ _ imm | .lbu _ _ imm | .lhu _ _ imm => some (imm.signExtend 32)
  | .sb _ _ imm | .sh _ _ imm | .sw _ _ imm => some (imm.signExtend 32)
  | .addi _ _ imm | .slti _ _ imm | .sltiu _ _ imm | .xori _ _ imm | .ori _ _ imm | .andi _ _ imm =>
    some (imm.signExtend 32)
  | .slli _ _ _ | .srli _ _ _ | .srai _ _ _ => none
  | .add _ _ _ | .sub _ _ _ | .sll _ _ _ | .slt _ _ _ | .sltu _ _ _ => none
  | .xor _ _ _ | .srl _ _ _ | .sra _ _ _ | .or _ _ _ | .and _ _ _ => none
  | .fence _ _ _ _ _ | .ecall => none

/-- The register an instruction names as rs1: R, I, S and B formats carry one (R79). FENCE and ECALL use none (R87, R88). -/
def sourceOne : Instr → Option RegIdx
  | .jalr _ rs1 _ => some rs1
  | .beq rs1 _ _ | .bne rs1 _ _ | .blt rs1 _ _ | .bge rs1 _ _ | .bltu rs1 _ _ | .bgeu rs1 _ _ => some rs1
  | .lb _ rs1 _ | .lh _ rs1 _ | .lw _ rs1 _ | .lbu _ rs1 _ | .lhu _ rs1 _ => some rs1
  | .sb rs1 _ _ | .sh rs1 _ _ | .sw rs1 _ _ => some rs1
  | .addi _ rs1 _ | .slti _ rs1 _ | .sltiu _ rs1 _ | .xori _ rs1 _ | .ori _ rs1 _ | .andi _ rs1 _ => some rs1
  | .slli _ rs1 _ | .srli _ rs1 _ | .srai _ rs1 _ => some rs1
  | .add _ rs1 _ | .sub _ rs1 _ | .sll _ rs1 _ | .slt _ rs1 _ | .sltu _ rs1 _ => some rs1
  | .xor _ rs1 _ | .srl _ rs1 _ | .sra _ rs1 _ | .or _ rs1 _ | .and _ rs1 _ => some rs1
  | .lui _ _ | .auipc _ _ | .jal _ _ | .fence _ _ _ _ _ | .ecall => none

/-- The register an instruction names as rs2: R, S and B formats carry one (R79). -/
def sourceTwo : Instr → Option RegIdx
  | .beq _ rs2 _ | .bne _ rs2 _ | .blt _ rs2 _ | .bge _ rs2 _ | .bltu _ rs2 _ | .bgeu _ rs2 _ => some rs2
  | .sb _ rs2 _ | .sh _ rs2 _ | .sw _ rs2 _ => some rs2
  | .add _ _ rs2 | .sub _ _ rs2 | .sll _ _ rs2 | .slt _ _ rs2 | .sltu _ _ rs2 => some rs2
  | .xor _ _ rs2 | .srl _ _ rs2 | .sra _ _ rs2 | .or _ _ rs2 | .and _ _ rs2 => some rs2
  | .lui _ _ | .auipc _ _ | .jal _ _ | .jalr _ _ _ => none
  | .lb _ _ _ | .lh _ _ _ | .lw _ _ _ | .lbu _ _ _ | .lhu _ _ _ => none
  | .addi _ _ _ | .slti _ _ _ | .sltiu _ _ _ | .xori _ _ _ | .ori _ _ _ | .andi _ _ _ => none
  | .slli _ _ _ | .srli _ _ _ | .srai _ _ _ | .fence _ _ _ _ _ | .ecall => none

/-- The immediate of the decoded word that a class takes (R78). -/
def classImmediate (d : Decoded) : OpClass → Option Word
  | .lui | .auipc => some d.immU
  | .jal => some d.immJ
  | .jalr | .load | .imm => some d.immI
  | .store => some d.immS
  | .branch => some d.immB
  | .op | .miscmem | .system => none

end Sys2Proof.Claims

open Sys2Proof Sys2Proof.Machine Sys2Proof.Safety Sys2Proof.Claims

/-! ## Results, frame and completion, class by class -/

/-- R140, R141: LUI and AUIPC, for every rd, x0 included. -/
def Obligations.UpperImmediateResults : Prop :=
  ∀ (s : State) (rd : RegIdx) (imm : BitVec 20),
    Writes (.lui rd imm) s rd (imm ++ 0#12) (s.pc + 4#32) ∧
    Writes (.auipc rd imm) s rd (s.pc + (imm ++ 0#12)) (s.pc + 4#32)

/-- R150: JAL links pc + 4 and goes to pc + immJ. That no alignment of the target is refused is R51 (D15, log 18). -/
def Obligations.JalResult : Prop :=
  ∀ (s : State) (rd : RegIdx) (imm : BitVec 21),
    Writes (.jal rd imm) s rd (s.pc + 4#32) (s.pc + imm.signExtend 32)

/-- R151: JALR goes to the sum with bit 0 cleared, from the value x[rs1] had before the link was written (R112). The last
clause rests on D11 (log 12). -/
def Obligations.JalrResult : Prop :=
  (∀ (s : State) (rd rs1 : RegIdx) (imm : BitVec 12),
    Writes (.jalr rd rs1 imm) s rd (s.pc + 4#32) ((s.readReg rs1 + imm.signExtend 32) &&& 0xFFFFFFFE#32)) ∧
  (∀ v : Word, (v &&& 0xFFFFFFFE#32).getLsbD 0 = false ∧
    ∀ k, 0 < k → (v &&& 0xFFFFFFFE#32).getLsbD k = v.getLsbD k) ∧
  ∀ w : Word, opcode w = 0x67#7 → funct3 w ≠ 0b000#3 → decodeWord w = .error .illegalInstruction

/-- R160 to R166: the six branches. That no alignment of the target is refused is R51 (D15, log 18). -/
def Obligations.BranchResults : Prop :=
  ∀ (s : State) (rs1 rs2 : RegIdx) (imm : BitVec 13),
    let a := s.readReg rs1
    let b := s.readReg rs2
    let taken := s.pc + imm.signExtend 32
    let next := s.pc + 4#32
    Goes (.beq rs1 rs2 imm) s (if a = b then taken else next) ∧
    Goes (.bne rs1 rs2 imm) s (if a = b then next else taken) ∧
    Goes (.blt rs1 rs2 imm) s (if a.toInt < b.toInt then taken else next) ∧
    Goes (.bge rs1 rs2 imm) s (if a.toInt < b.toInt then next else taken) ∧
    Goes (.bltu rs1 rs2 imm) s (if a.toNat < b.toNat then taken else next) ∧
    Goes (.bgeu rs1 rs2 imm) s (if a.toNat < b.toNat then next else taken)

/-- R170 to R175: the five loads, at any alignment, for every rd; out of bounds they change the run state alone. Any
alignment is R50 (D14, log 18); what InBounds means is BoundsOfTheWindow (D17, log 13). -/
def Obligations.LoadResults : Prop :=
  ∀ (s : State) (rd rs1 : RegIdx) (imm : BitVec 12),
    let ea := s.readReg rs1 + imm.signExtend 32
    let next := s.pc + 4#32
    (inBounds ea 1 = true → Writes (.lb rd rs1 imm) s rd ((byteAt s ea 0).signExtend 32) next) ∧
    (inBounds ea 2 = true → Writes (.lh rd rs1 imm) s rd ((byteAt s ea 1 ++ byteAt s ea 0).signExtend 32) next) ∧
    (inBounds ea 4 = true → Writes (.lw rd rs1 imm) s rd (wordAt s ea) next) ∧
    (inBounds ea 1 = true → Writes (.lbu rd rs1 imm) s rd ((byteAt s ea 0).setWidth 32) next) ∧
    (inBounds ea 2 = true → Writes (.lhu rd rs1 imm) s rd ((byteAt s ea 1 ++ byteAt s ea 0).setWidth 32) next) ∧
    (inBounds ea 1 = false → Stops (.lb rd rs1 imm) s (.error .outOfBounds)) ∧
    (inBounds ea 2 = false → Stops (.lh rd rs1 imm) s (.error .outOfBounds)) ∧
    (inBounds ea 4 = false → Stops (.lw rd rs1 imm) s (.error .outOfBounds)) ∧
    (inBounds ea 1 = false → Stops (.lbu rd rs1 imm) s (.error .outOfBounds)) ∧
    (inBounds ea 2 = false → Stops (.lhu rd rs1 imm) s (.error .outOfBounds))

/-- R176 to R179: the three stores, at any alignment; out of bounds they write no byte. The premise is the invariant of
StepKeepsInvariant. The address is the model's `effectiveAddress`, and the first clause says what that is. Any alignment
is R50 (D14, log 18); what InBounds means is BoundsOfTheWindow (D17, log 13). -/
def Obligations.StoreResults : Prop :=
  ∀ (s : State) (rs1 rs2 : RegIdx) (imm : BitVec 12), MachineInv s →
    let ea := effectiveAddress s rs1 imm
    let v := s.readReg rs2
    ea = s.readReg rs1 + imm.signExtend 32 ∧
    (inBounds ea 1 = true → Stores (.sb rs1 rs2 imm) s ea 1 v) ∧
    (inBounds ea 2 = true → Stores (.sh rs1 rs2 imm) s ea 2 v) ∧
    (inBounds ea 4 = true → Stores (.sw rs1 rs2 imm) s ea 4 v) ∧
    (inBounds ea 1 = false → Stops (.sb rs1 rs2 imm) s (.error .outOfBounds)) ∧
    (inBounds ea 2 = false → Stops (.sh rs1 rs2 imm) s (.error .outOfBounds)) ∧
    (inBounds ea 4 = false → Stops (.sw rs1 rs2 imm) s (.error .outOfBounds))

/-- R191, R192, R194 to R196: ADDI, SLTI, XORI, ORI, ANDI; the immediate is sign-extended for all five. -/
def Obligations.ImmediateArithmeticResults : Prop :=
  ∀ (s : State) (rd rs1 : RegIdx) (imm : BitVec 12),
    let a := s.readReg rs1
    let b : Word := imm.signExtend 32
    let next := s.pc + 4#32
    Writes (.addi rd rs1 imm) s rd (a + b) next ∧
    Writes (.slti rd rs1 imm) s rd (if a.toInt < b.toInt then 1#32 else 0#32) next ∧
    Writes (.xori rd rs1 imm) s rd (a ^^^ b) next ∧
    Writes (.ori rd rs1 imm) s rd (a ||| b) next ∧
    Writes (.andi rd rs1 imm) s rd (a &&& b) next

/-- R193: SLTIU compares with the sign-extended immediate, both read as unsigned: the spec marks this rule as derived from
R72 and R12. With immediate 1 it tells whether x[rs1] is 0, and with immediate -1 whether x[rs1] is not 0xFFFFFFFF. -/
def Obligations.SltiuResult : Prop :=
  ∀ (s : State) (rd rs1 : RegIdx) (imm : BitVec 12),
    let a := s.readReg rs1
    let next := s.pc + 4#32
    Writes (.sltiu rd rs1 imm) s rd (if a.toNat < (imm.signExtend 32 : Word).toNat then 1#32 else 0#32) next ∧
    Writes (.sltiu rd rs1 1#12) s rd (if a = 0#32 then 1#32 else 0#32) next ∧
    Writes (.sltiu rd rs1 (-1)) s rd (if a = 0xFFFFFFFF#32 then 0#32 else 1#32) next

/-- R197 to R199: SLLI, SRLI, SRAI, the last as the floor of the signed value over 2^shamt. The last clause rests on D12
(log 12). -/
def Obligations.ImmediateShiftResults : Prop :=
  (∀ (s : State) (rd rs1 : RegIdx) (shamt : BitVec 5),
    let a := s.readReg rs1
    let next := s.pc + 4#32
    Writes (.slli rd rs1 shamt) s rd (a <<< shamt.toNat) next ∧
    Writes (.srli rd rs1 shamt) s rd (BitVec.ofNat 32 (a.toNat / 2 ^ shamt.toNat)) next ∧
    Writes (.srai rd rs1 shamt) s rd (BitVec.ofInt 32 (a.toInt / 2 ^ shamt.toNat)) next) ∧
  ∀ w : Word, opcode w = 0x13#7 →
    (funct3 w = 0b001#3 → funct7 w ≠ 0b0000000#7 → decodeWord w = .error .illegalInstruction) ∧
    (funct3 w = 0b101#3 → funct7 w ≠ 0b0000000#7 → funct7 w ≠ 0b0100000#7 →
      decodeWord w = .error .illegalInstruction)

/-- R211 to R220: the OP class; shifts use the low 5 bits of x[rs2]. -/
def Obligations.RegisterArithmeticResults : Prop :=
  ∀ (s : State) (rd rs1 rs2 : RegIdx),
    let a := s.readReg rs1
    let b := s.readReg rs2
    let n := b.toNat % 32
    let next := s.pc + 4#32
    Writes (.add rd rs1 rs2) s rd (a + b) next ∧
    Writes (.sub rd rs1 rs2) s rd (a - b) next ∧
    Writes (.sll rd rs1 rs2) s rd (a <<< n) next ∧
    Writes (.slt rd rs1 rs2) s rd (if a.toInt < b.toInt then 1#32 else 0#32) next ∧
    Writes (.sltu rd rs1 rs2) s rd (if a.toNat < b.toNat then 1#32 else 0#32) next ∧
    Writes (.xor rd rs1 rs2) s rd (a ^^^ b) next ∧
    Writes (.srl rd rs1 rs2) s rd (BitVec.ofNat 32 (a.toNat / 2 ^ n)) next ∧
    Writes (.sra rd rs1 rs2) s rd (BitVec.ofInt 32 (a.toInt / 2 ^ n)) next ∧
    Writes (.or rd rs1 rs2) s rd (a ||| b) next ∧
    Writes (.and rd rs1 rs2) s rd (a &&& b) next

/-- R230, R87: FENCE advances pc and nothing else, whatever its fields hold; every MISCMEM word with funct3 = 000 is one.
Rests on D10 (log 12). -/
def Obligations.FenceOnlyAdvances : Prop :=
  (∀ (s : State) (fm pred succ : BitVec 4) (rs1 rd : RegIdx),
    Goes (.fence fm pred succ rs1 rd) s (s.pc + 4#32)) ∧
  (∀ w : Word, opcode w = 0x0F#7 → funct3 w = 0b000#3 →
    ∃ fm pred succ rs1 rd, decodeWord w = .ok (.fence fm pred succ rs1 rd)) ∧
  ∀ w : Word, opcode w = 0x0F#7 → funct3 w ≠ 0b000#3 → decodeWord w = .error .illegalInstruction

/-- R231: ECALL halts with Pass or Fail and changes nothing else, under every convention; the conventions the spec names
are the default of reset and the alternative. Rests on D6, D7, D8 (logs 4, 14). -/
def Obligations.EcallHalts : Prop :=
  (∀ s : State,
    (s.readReg s.conv.statusReg = s.conv.passValue → Stops .ecall s .pass) ∧
    (s.readReg s.conv.statusReg ≠ s.conv.passValue → Stops .ecall s (.fail (s.readReg s.conv.statusReg)))) ∧
  State.reset.conv = { statusReg := 3#5, passValue := 1#32 } ∧
  alternativeConvention = { statusReg := 10#5, passValue := 0#32 }

/-! ## Encoding -/

/-- Decoding the word of a well-formed instruction gives the instruction, every operand at every value. -/
def Obligations.DecodeOfEncode : Prop := ∀ i : Instr, i.wf = true → decodeWord (encode i) = .ok i

/-- A word that decodes is the encoding of the well-formed instruction it decodes to: no bit is dropped. -/
def Obligations.EncodeOfDecode : Prop :=
  ∀ (w : Word) (i : Instr), decodeWord w = .ok i → i.wf = true ∧ encode i = w

/-- The bytes of a well-formed instruction decode to it and leave the bytes after them; fewer than 4 bytes are refused by
name (the model's own `truncated`, log 11). -/
def Obligations.DecodeOfEncodedBytes : Prop :=
  (∀ (i : Instr) (rest : List Byte), i.wf = true → decodeBytes (encodeBytes i ++ rest) = .ok (i, rest)) ∧
  ∀ bs : List Byte, bs.length < 4 → decodeBytes bs = .error .truncated

/-- R91: UnknownOpcode is reported for the words whose opcode is not one of the 11 of R81, and for no other. The numbers
of the 11 are the spec's general knowledge (GK2; log 11). -/
def Obligations.UnknownOpcodeExactly : Prop :=
  ∀ w : Word, decodeWord w = .error .unknownOpcode ↔ opcode w ∉ knownOpcodes

/-- R92: the illegal words are exactly those of the list. Rests on D9 to D13 (log 12). -/
def Obligations.IllegalWordsExactly : Prop :=
  ∀ w : Word, decodeWord w = .error .illegalInstruction ↔ IllegalWord w

/-- R88, R93: under SYSTEM one word is ECALL and every other word is illegal. Rests on D9 (log 12). -/
def Obligations.SystemWordsOnlyEcall : Prop :=
  (∀ w : Word, decodeWord w = .ok .ecall ↔ w = 0x00000073#32) ∧
  ∀ w : Word, opcode w = 0x73#7 → w ≠ 0x00000073#32 → decodeWord w = .error .illegalInstruction

/-- R72 to R76: the five immediates of every word, bit by bit, with their ranges. -/
def Obligations.ImmediatesBitByBit : Prop :=
  ∀ w : Word,
    let d := fieldsOf w
    (∀ k, k < 32 → d.immI.getLsbD k = w.getLsbD (if k < 12 then 20 + k else 31)) ∧
    (∀ k, k < 32 → d.immS.getLsbD k = w.getLsbD (if k < 5 then 7 + k else if k < 12 then 20 + k else 31)) ∧
    (∀ k, k < 32 → d.immB.getLsbD k =
      if k = 0 then false else w.getLsbD (if k < 5 then 7 + k else if k < 11 then 20 + k else if k = 11 then 7 else 31)) ∧
    (∀ k, k < 32 → d.immU.getLsbD k = if k < 12 then false else w.getLsbD k) ∧
    (∀ k, k < 32 → d.immJ.getLsbD k =
      if k = 0 then false
      else w.getLsbD (if k < 11 then 20 + k else if k = 11 then 20 else if k < 20 then k else 31)) ∧
    d.immB = ((w.extractLsb' 31 1 ++ w.extractLsb' 7 1 ++ w.extractLsb' 25 6 ++ w.extractLsb' 8 4 :
      BitVec 12).signExtend 32) <<< 1 ∧
    d.immJ = ((w.extractLsb' 31 1 ++ w.extractLsb' 12 8 ++ w.extractLsb' 20 1 ++ w.extractLsb' 21 10 :
      BitVec 20).signExtend 32) <<< 1 ∧
    d.immU = w &&& 0xFFFFF000#32 ∧
    (-2048 ≤ d.immI.toInt ∧ d.immI.toInt ≤ 2047) ∧ (-2048 ≤ d.immS.toInt ∧ d.immS.toInt ≤ 2047) ∧
    (-4096 ≤ d.immB.toInt ∧ d.immB.toInt ≤ 4094) ∧ (-1048576 ≤ d.immJ.toInt ∧ d.immJ.toInt ≤ 1048574)

/-- R71, R78 to R80, R87: a decoded instruction has the class of the word's opcode, its destination is w[11:7], its rs1 is
w[19:15], its rs2 is w[24:20], its data access goes through w[19:15], its immediate is the one its class takes, an
immediate shift takes w[24:20], and FENCE keeps the fields it ignores. The numbers of the classes and of the widths are
the spec's general knowledge (GK2, GK11; log 11). -/
def Obligations.OperandsComeFromTheWord : Prop :=
  ∀ (w : Word) (i : Instr), decodeWord w = .ok i →
    i.opClass.opcode = opcode w ∧
    (∀ rd, i.dest = some rd → rd = w.extractLsb' 7 5) ∧
    (∀ rs1, sourceOne i = some rs1 → rs1 = w.extractLsb' 15 5) ∧
    (∀ rs2, sourceTwo i = some rs2 → rs2 = w.extractLsb' 20 5) ∧
    (∀ rs1 imm n, i.access = some (rs1, imm, n) → rs1 = w.extractLsb' 15 5 ∧ n = wordWidth w) ∧
    (∀ v, immediateOf i = some v → classImmediate (fieldsOf w) i.opClass = some v) ∧
    (∀ rd rs1 shamt, (i = .slli rd rs1 shamt ∨ i = .srli rd rs1 shamt ∨ i = .srai rd rs1 shamt) →
      rs1 = w.extractLsb' 15 5 ∧ shamt = w.extractLsb' 20 5) ∧
    (∀ fm pred succ rs1 rd, i = .fence fm pred succ rs1 rd →
      fm = w.extractLsb' 28 4 ∧ pred = w.extractLsb' 24 4 ∧ succ = w.extractLsb' 20 4 ∧
      rs1 = w.extractLsb' 15 5 ∧ rd = w.extractLsb' 7 5)

/-- R78, R81 to R84, R89: the words of the jumps, LUI, AUIPC, the branches, loads and stores, field by field at every
value, and the instruction each decodes to. The numbers are the spec's general knowledge (GK2; log 11). -/
def Obligations.JumpBranchMemoryLayouts : Prop :=
  ∀ (rd rs1 rs2 : BitVec 5) (u : BitVec 20) (imm : BitVec 12) (hi : BitVec 7) (lo : BitVec 5)
    (b31 b7 b20 : BitVec 1) (b30_25 : BitVec 6) (b11_8 : BitVec 4) (b30_21 : BitVec 10) (b19_12 : BitVec 8),
    let loadW := fun (f3 : BitVec 3) => (imm ++ rs1 ++ f3 ++ rd ++ 0b0000011#7 : Word)
    let storeW := fun (f3 : BitVec 3) => (hi ++ rs2 ++ rs1 ++ f3 ++ lo ++ 0b0100011#7 : Word)
    let branchW := fun (f3 : BitVec 3) => (b31 ++ b30_25 ++ rs2 ++ rs1 ++ f3 ++ b11_8 ++ b7 ++ 0b1100011#7 : Word)
    let offB : BitVec 13 := b31 ++ b7 ++ b30_25 ++ b11_8 ++ 0#1
    decodeWord (u ++ rd ++ 0b0110111#7) = .ok (.lui rd u) ∧
    decodeWord (u ++ rd ++ 0b0010111#7) = .ok (.auipc rd u) ∧
    decodeWord (b31 ++ b30_21 ++ b20 ++ b19_12 ++ rd ++ 0b1101111#7) =
      .ok (.jal rd (b31 ++ b19_12 ++ b20 ++ b30_21 ++ 0#1)) ∧
    decodeWord (imm ++ rs1 ++ 0b000#3 ++ rd ++ 0b1100111#7) = .ok (.jalr rd rs1 imm) ∧
    decodeWord (branchW 0b000#3) = .ok (.beq rs1 rs2 offB) ∧ decodeWord (branchW 0b001#3) = .ok (.bne rs1 rs2 offB) ∧
    decodeWord (branchW 0b100#3) = .ok (.blt rs1 rs2 offB) ∧ decodeWord (branchW 0b101#3) = .ok (.bge rs1 rs2 offB) ∧
    decodeWord (branchW 0b110#3) = .ok (.bltu rs1 rs2 offB) ∧ decodeWord (branchW 0b111#3) = .ok (.bgeu rs1 rs2 offB) ∧
    decodeWord (loadW 0b000#3) = .ok (.lb rd rs1 imm) ∧ decodeWord (loadW 0b001#3) = .ok (.lh rd rs1 imm) ∧
    decodeWord (loadW 0b010#3) = .ok (.lw rd rs1 imm) ∧ decodeWord (loadW 0b100#3) = .ok (.lbu rd rs1 imm) ∧
    decodeWord (loadW 0b101#3) = .ok (.lhu rd rs1 imm) ∧
    decodeWord (storeW 0b000#3) = .ok (.sb rs1 rs2 (hi ++ lo)) ∧
    decodeWord (storeW 0b001#3) = .ok (.sh rs1 rs2 (hi ++ lo)) ∧
    decodeWord (storeW 0b010#3) = .ok (.sw rs1 rs2 (hi ++ lo))

/-- R78, R85 to R88: the words of the IMM, OP, MISCMEM and SYSTEM classes, field by field at every value, and the
instruction each decodes to. The numbers are the spec's general knowledge (GK2, GK11, GK14; log 11); that FENCE takes
every value of its fields is the spec's decision D10 (log 12). -/
def Obligations.ArithmeticSystemLayouts : Prop :=
  ∀ (rd rs1 rs2 shamt : BitVec 5) (imm : BitVec 12) (fm pred succ : BitVec 4),
    let immW := fun (f3 : BitVec 3) => (imm ++ rs1 ++ f3 ++ rd ++ 0b0010011#7 : Word)
    let shiftW := fun (f7 : BitVec 7) (f3 : BitVec 3) => (f7 ++ shamt ++ rs1 ++ f3 ++ rd ++ 0b0010011#7 : Word)
    let opW := fun (f7 : BitVec 7) (f3 : BitVec 3) => (f7 ++ rs2 ++ rs1 ++ f3 ++ rd ++ 0b0110011#7 : Word)
    decodeWord (immW 0b000#3) = .ok (.addi rd rs1 imm) ∧ decodeWord (immW 0b010#3) = .ok (.slti rd rs1 imm) ∧
    decodeWord (immW 0b011#3) = .ok (.sltiu rd rs1 imm) ∧ decodeWord (immW 0b100#3) = .ok (.xori rd rs1 imm) ∧
    decodeWord (immW 0b110#3) = .ok (.ori rd rs1 imm) ∧ decodeWord (immW 0b111#3) = .ok (.andi rd rs1 imm) ∧
    decodeWord (shiftW 0b0000000#7 0b001#3) = .ok (.slli rd rs1 shamt) ∧
    decodeWord (shiftW 0b0000000#7 0b101#3) = .ok (.srli rd rs1 shamt) ∧
    decodeWord (shiftW 0b0100000#7 0b101#3) = .ok (.srai rd rs1 shamt) ∧
    decodeWord (opW 0b0000000#7 0b000#3) = .ok (.add rd rs1 rs2) ∧
    decodeWord (opW 0b0100000#7 0b000#3) = .ok (.sub rd rs1 rs2) ∧
    decodeWord (opW 0b0000000#7 0b001#3) = .ok (.sll rd rs1 rs2) ∧
    decodeWord (opW 0b0000000#7 0b010#3) = .ok (.slt rd rs1 rs2) ∧
    decodeWord (opW 0b0000000#7 0b011#3) = .ok (.sltu rd rs1 rs2) ∧
    decodeWord (opW 0b0000000#7 0b100#3) = .ok (.xor rd rs1 rs2) ∧
    decodeWord (opW 0b0000000#7 0b101#3) = .ok (.srl rd rs1 rs2) ∧
    decodeWord (opW 0b0100000#7 0b101#3) = .ok (.sra rd rs1 rs2) ∧
    decodeWord (opW 0b0000000#7 0b110#3) = .ok (.or rd rs1 rs2) ∧
    decodeWord (opW 0b0000000#7 0b111#3) = .ok (.and rd rs1 rs2) ∧
    decodeWord (fm ++ pred ++ succ ++ rs1 ++ 0b000#3 ++ rd ++ 0b0001111#7) = .ok (.fence fm pred succ rs1 rd) ∧
    decodeWord (0b000000000000#12 ++ 0b00000#5 ++ 0b000#3 ++ 0b00000#5 ++ 0b1110011#7) = .ok .ecall

/-- A few words written out from R78 and R81 to R89 (the spec's example words among them, R98) decode as they should. -/
def Obligations.ExampleWordsDecode : Prop :=
  decodeWord 0x00500093#32 = .ok (.addi 1#5 0#5 5#12) ∧
  decodeWord 0x00308093#32 = .ok (.addi 1#5 1#5 3#12) ∧
  decodeWord 0b00010010001101000101_00101_0110111#32 = .ok (.lui 5#5 0x12345#20) ∧
  decodeWord 0b1_1111111110_1_11111111_00000_1101111#32 = .ok (.jal 0#5 (-4)) ∧
  decodeWord 0b1_111111_00010_00001_100_1100_1_1100011#32 = .ok (.blt 1#5 2#5 (-8)) ∧
  decodeWord 0b111111111100_00001_010_00011_0000011#32 = .ok (.lw 3#5 1#5 (-4)) ∧
  decodeWord 0b0111111_00010_00001_001_11111_0100011#32 = .ok (.sh 1#5 2#5 2047#12) ∧
  decodeWord 0b0100000_00111_00110_101_00101_0110011#32 = .ok (.sra 5#5 6#5 7#5) ∧
  decodeWord 0b0000_1111_1111_00000_000_00000_0001111#32 = .ok (.fence 0#4 15#4 15#4 0#5 0#5) ∧
  decodeWord 0x00000073#32 = .ok .ecall

/-- R94: an ALU, LUI or AUIPC word with rd = x0 executes as the instruction it spells and changes pc alone; the canonical
NOP is one. The spec marks R94 as derived from R90 and R21. -/
def Obligations.HintsOnlyAdvance : Prop :=
  (∀ (i : Instr) (s : State), i.opClass ∈ [OpClass.lui, .auipc, .imm, .op] → i.dest = some 0#5 →
    exec i s = .next { s with pc := s.pc + 4#32 }) ∧
  decodeWord 0x00000013#32 = .ok (.addi 0#5 0#5 0#12)

/-! ## The cycle -/

/-- R119: a running core whose 4 bytes at pc lie in the window and decode to `i` does exactly what `exec i` does: the
cycle adds nothing around it, for pc is moved by the instruction itself (R116). -/
def Obligations.StepRunsTheDecodedInstruction : Prop :=
  ∀ (s : State) (i : Instr), s.run = .running → inBounds s.pc 4 = true → decodeWord (wordAt s s.pc) = .ok i →
    step s = exec i s

/-- R119, R248: no state and no instruction leaves the machine without a next state. That an error and ECALL are next
states is the model's reading (log 5); for a halted state it rests on D16 (log 15). -/
def Obligations.EveryStepAnswersNext : Prop :=
  (∀ s : State, ∃ t, step s = .next t) ∧ ∀ (i : Instr) (s : State), ∃ t, exec i s = .next t

/-- R118, R249: a halted core stays as it is, for any number of steps. Rests on D16 (log 15). -/
def Obligations.HaltedIsFinal : Prop :=
  ∀ (s : State) (o : RunOutcome) (n : Nat), s.run = .halted o →
    Sys2Proof.core.run n s = .next s ∧ runLimited n s = s

/-- R243: a cycle that raises an error leaves all but the run state as it was. -/
def Obligations.ErrorKeepsTheState : Prop :=
  ∀ (s t : State) (k : ErrorKind), s.run = .running → step s = .next t → t.run = .halted (.error k) →
    t = { s with run := .halted (.error k) }

/-- R245 with R241, R242, R244: a cycle ends in Error(k) exactly when k is the first error of the checks in their order.
Written over the raw word at pc, not the decoder. Rests on D20 (log 16), D9 to D13 (log 12), D17
(log 13) and, since no misaligned access is an error, D14 and D15 (log 18); the numbers are GK2 (log 11). -/
def Obligations.ErrorsExactlyInOrder : Prop :=
  ∀ (s : State) (k : ErrorKind), s.run = .running →
    ((∃ t, step s = .next t ∧ t.run = .halted (.error k)) ↔ FirstError s k)

/-- R247: only ECALL ends a run with Pass or Fail, and it changes the run state alone. That the word is
0x00000073 and no other rests on D9 (log 12), that pc stays on D8 (log 14). -/
def Obligations.OnlyEcallPassesOrFails : Prop :=
  ∀ (s t : State) (o : RunOutcome), s.run = .running → step s = .next t → t.run = .halted o →
    (∀ k, o ≠ .error k) → inBounds s.pc 4 = true ∧ wordAt s s.pc = 0x00000073#32 ∧ t = { s with run := .halted o }

/-- R114, R120: an instruction changes no register but the one its write-back names; branches, stores, FENCE and ECALL
change none. The spec marks R120 as derived. -/
def Obligations.OnlyTheDestinationIsWritten : Prop :=
  ∀ (i : Instr) (s t : State), exec i s = .next t → ∀ r : RegIdx, i.dest ≠ some r → t.readReg r = s.readReg r

/-- R21: x0 reads 0, writing it changes nothing, and every instruction that names rd = 0 leaves every register as it was;
a load that names it still takes OutOfBounds. -/
def Obligations.RegisterZeroIsHardwired : Prop :=
  (∀ s : State, s.readReg 0#5 = 0#32 ∧ ∀ v : Word, s.writeReg 0#5 v = s) ∧
  (∀ (i : Instr) (s t : State), i.dest = some 0#5 → exec i s = .next t → SameRegs s t) ∧
  ∀ (i : Instr) (s : State) (rs1 : RegIdx) (imm : BitVec 12) (n : Nat), i.dest = some 0#5 →
    i.access = some (rs1, imm, n) → inBounds (s.readReg rs1 + imm.signExtend 32) n = false →
    Stops i s (.error .outOfBounds)

/-- R113, R120 (marked as derived): only a store changes memory, and only the bytes it names. -/
def Obligations.OnlyStoresChangeMemory : Prop :=
  ∀ (i : Instr) (s t : State), MachineInv s → exec i s = .next t →
    (i.opClass ≠ .store → SameMemory s t) ∧
    ∀ rs1 imm n, i.access = some (rs1, imm, n) →
      ∀ a, a < (effectiveAddress s rs1 imm).toNat ∨ (effectiveAddress s rs1 imm).toNat + n ≤ a →
        t.mem.readByte a = s.mem.readByte a

/-- R116, R117: a cycle that goes on moves pc by 4 unless it is a branch or jump, and one that ends the run leaves pc.
The ECALL part rests on D8 (log 14). -/
def Obligations.NextPcRule : Prop :=
  ∀ (i : Instr) (s t : State), s.run = .running → exec i s = .next t →
    (t.run = .running → i.opClass ∉ [OpClass.branch, .jal, .jalr] → t.pc = s.pc + 4#32) ∧
    (t.run ≠ .running → t.pc = s.pc)

/-- R231, R9: the convention never changes, and only ECALL depends on it. -/
def Obligations.ConventionMattersToEcallOnly : Prop :=
  (∀ s t : State, step s = .next t → t.conv = s.conv) ∧
  ∀ (i : Instr) (s t : State) (c : Config.Convention), i ≠ .ecall → exec i s = .next t →
    exec i { s with conv := c } = .next { t with conv := c }

/-- R52, R56, R113: a step depends on memory only through the 4 bytes at pc and the bytes a load names. Two states that
differ elsewhere in memory go on alike, and still differ only where they did. -/
def Obligations.StepReadsOnlyFetchAndLoad : Prop :=
  ∀ (s : State) (m : Memory) (t t' : State), MachineInv s → m.wf = true →
    (∀ k, k < 4 → m.readByte (s.pc.toNat + k) = s.mem.readByte (s.pc.toNat + k)) →
    (∀ i rs1 imm n, decodeWord (wordAt s s.pc) = .ok i → i.opClass = .load →
      i.access = some (rs1, imm, n) → ∀ k, k < n → m.readByte ((s.readReg rs1 + imm.signExtend 32).toNat + k) =
        s.mem.readByte ((s.readReg rs1 + imm.signExtend 32).toNat + k)) →
    step s = .next t → step { s with mem := m } = .next t' →
    t'.regs = t.regs ∧ t'.pc = t.pc ∧ t'.run = t.run ∧ t'.conv = t.conv ∧
      ∀ a, m.readByte a = s.mem.readByte a → t'.mem.readByte a = t.mem.readByte a

/-! ## Memory -/

/-- R41, R42: InBounds over integers, with the addresses at its edges. Rests on D17 (log 13). -/
def Obligations.BoundsOfTheWindow : Prop :=
  (∀ (a : Word) (w : Nat), inBounds a w = true ↔ 0x80000000 ≤ a.toNat ∧ a.toNat + w ≤ 0x81000000) ∧
  inBounds 0x80FFFFFC#32 4 = true ∧ inBounds 0x80FFFFFD#32 4 = false ∧ inBounds 0x80000000#32 1 = true ∧
  inBounds 0x7FFFFFFF#32 4 = false ∧ inBounds 0xFFFFFFFF#32 4 = false

/-- R45, R46: what a fetch and a data read answer, byte by byte; both agree for a word. -/
def Obligations.ReadsAreLittleEndian : Prop :=
  ∀ (m : Memory) (a : Word),
    let b := fun k => m.readByte (a.toNat + k)
    memRead m a .byte = (if inBounds a 1 then .ok ((b 0).setWidth 32) else .error .outOfBounds) ∧
    memRead m a .half = (if inBounds a 2 then .ok ((b 1 ++ b 0).setWidth 32) else .error .outOfBounds) ∧
    memRead m a .word = (if inBounds a 4 then .ok (b 3 ++ b 2 ++ b 1 ++ b 0) else .error .outOfBounds) ∧
    fetchWord m a = memRead m a .word

/-- R47, R43: what a data write does, byte by byte; out of bounds it does nothing. -/
def Obligations.WritesAreLittleEndian : Prop :=
  ∀ (m : Memory) (a v : Word) (n : AccessWidth), m.wf = true →
    (inBounds a n.bytes = true → ∃ m', memWrite m a n v = .ok m' ∧ BytesWritten m m' a.toNat n.bytes v) ∧
    (inBounds a n.bytes = false → memWrite m a n v = .error .outOfBounds)

/-- R48, which the spec marks as derived from R46 and R47: mixed-width reads of a word just written. -/
def Obligations.MixedWidthReads : Prop :=
  ∀ (m m' : Memory) (a v : Word), m.wf = true → memWrite m a .word v = .ok m' →
    memRead m' a .word = .ok v ∧
    memRead m' a .byte = .ok ((v.extractLsb' 0 8).setWidth 32) ∧
    memRead m' (a + 1#32) .byte = .ok ((v.extractLsb' 8 8).setWidth 32) ∧
    memRead m' a .half = .ok ((v.extractLsb' 0 16).setWidth 32) ∧
    memRead m' (a + 2#32) .half = .ok ((v.extractLsb' 16 16).setWidth 32)

/-- R180: a store and then a load of the same width at the same address, the base register being read in both.
The spec marks R180 as derived. -/
def Obligations.StoreThenLoad : Prop :=
  ∀ (s : State) (rd rs1 rs2 : RegIdx) (imm : BitVec 12) (t : State), MachineInv s →
    let v := s.readReg rs2
    let ea := s.readReg rs1 + imm.signExtend 32
    (inBounds ea 4 = true → exec (.sw rs1 rs2 imm) s = .next t → Writes (.lw rd rs1 imm) t rd v (t.pc + 4#32)) ∧
    (inBounds ea 2 = true → exec (.sh rs1 rs2 imm) s = .next t →
      Writes (.lh rd rs1 imm) t rd ((v.extractLsb' 0 16).signExtend 32) (t.pc + 4#32) ∧
      Writes (.lhu rd rs1 imm) t rd ((v.extractLsb' 0 16).setWidth 32) (t.pc + 4#32)) ∧
    (inBounds ea 1 = true → exec (.sb rs1 rs2 imm) s = .next t →
      Writes (.lb rd rs1 imm) t rd ((v.extractLsb' 0 8).signExtend 32) (t.pc + 4#32) ∧
      Writes (.lbu rd rs1 imm) t rd ((v.extractLsb' 0 8).setWidth 32) (t.pc + 4#32))

/-- R59, R276: the word a store wrote is the instruction the next fetch from that address runs, with no fence. The spec
marks both rules as derived. -/
def Obligations.StoredInstructionIsFetched : Prop :=
  ∀ (s t : State) (rs1 rs2 : RegIdx) (imm : BitVec 12) (i : Instr), MachineInv s → s.run = .running → i.wf = true →
    inBounds (s.readReg rs1 + imm.signExtend 32) 4 = true → s.readReg rs2 = encode i →
    exec (.sw rs1 rs2 imm) s = .next t →
    step (t.setPc (s.readReg rs1 + imm.signExtend 32)) = exec i (t.setPc (s.readReg rs1 + imm.signExtend 32))

/-- The model's own canonical form (log 9): two canonical memories that read alike at every address are equal data. -/
def Obligations.CanonicalMemoriesAreEqual : Prop :=
  ∀ m m' : Memory, m.wf = true → m'.wf = true → (∀ a, m.readByte a = m'.readByte a) → m = m'

/-! ## Reset, loader, runs -/

/-- R34, R270 with R9: what reset leaves, for every value of the parameters; State.reset is the instance at the defaults.
The default values rest on D3 to D6, x1..x31 = 0 and an unlisted byte = 0 on logs 1 and 2. -/
def Obligations.ResetState : Prop :=
  (∀ p : Params, (State.boot p).run = .running ∧ (State.boot p).pc = p.resetPc ∧ (State.boot p).readReg 0#5 = 0#32 ∧
    (∀ (k : Nat) (hk : k < 31), (State.boot p).readReg (BitVec.ofNat 5 (k + 1)) = p.initX[k]) ∧
    (∀ a, (State.boot p).mem.readByte a = p.initMem.readByte a) ∧ (State.boot p).conv = p.conv) ∧
  State.reset = State.boot Params.default ∧ State.reset.pc = 0x80000000#32

/-- The invariant holds after every reset whose INIT_MEM is a memory of the window, and at State.reset. -/
def Obligations.ResetMeetsInvariant : Prop :=
  (∀ p : Params, ParamsOk p → MachineInv (State.boot p)) ∧ MachineInv State.reset

/-- From every state that meets the invariant, reached by a run or not, a step leads to one that meets it. -/
def Obligations.StepKeepsInvariant : Prop := ∀ s t : State, MachineInv s → step s = .next t → MachineInv t

/-- Every state of every run, under any parameters and any loaded segments, meets the invariant, so memory lists only
bytes of the window (R31). The form is the model's own (log 9), and so is what an unlisted address reads as (log 2). -/
def Obligations.ReachableStatesMeetInvariant : Prop :=
  ∀ s : State, Reachable s → MachineInv s ∧ ∀ a, a < 0x80000000 ∨ 0x81000000 ≤ a → s.mem.readByte a = unlistedByte

/-- R53, R43, R44: one segment through the loader port, whole or not at all. -/
def Obligations.LoadSegmentExact : Prop :=
  ∀ (m : Memory) (a : Word) (bs : List Byte), m.wf = true →
    (0x80000000 ≤ a.toNat → a.toNat + bs.length ≤ 0x81000000 →
      ∃ m', loadSegment m (a, bs) = .ok m' ∧
        (∀ (k : Nat) (hk : k < bs.length), m'.readByte (a.toNat + k) = bs[k]) ∧
        ∀ b, b < a.toNat ∨ a.toNat + bs.length ≤ b → m'.readByte b = m.readByte b) ∧
    (a.toNat < 0x80000000 ∨ 0x81000000 < a.toNat + bs.length → loadSegment m (a, bs) = .error .outOfBounds)

/-- R273, R53: the first segment that does not fit ends the run before its first cycle; the earlier segments stay, no
later one is loaded. Rests on D18 (log 17); that a step then changes nothing is R118 and rests on D16 (log 15). -/
def Obligations.LoaderStopsAtFirstFailure : Prop :=
  ∀ (good rest : List Segment) (bad : Segment) (s : State), s.run = .running →
    (∀ seg ∈ good, inBounds seg.1 seg.2.length = true) → inBounds bad.1 bad.2.length = false →
    (loadSegments good s).run = .running ∧
    loadSegments (good ++ bad :: rest) s = { loadSegments good s with run := .halted (.error .outOfBounds) } ∧
    step (loadSegments (good ++ bad :: rest) s) = .next (loadSegments (good ++ bad :: rest) s)

/-- R125, R128, D19 (log 10): stepping under an instruction limit is stepping that many times; a run that ended under one
limit has the same end under every larger one. That stepping on after HALTED agrees with stopping there is R118 and
rests on D16 (log 15). -/
def Obligations.LimitedRunsAgree : Prop :=
  (∀ (n : Nat) (s : State), Sys2Proof.core.run n s = .next (runLimited n s)) ∧
  ∀ (n k : Nat) (s : State), (runLimited n s).run ≠ .running → runLimited (n + k) s = runLimited n s

/-- R121, R122, R28: the reply of the step port and the status port say what the run state is. Rests on D2 (log 10). -/
def Obligations.PortsReportTheRunState : Prop :=
  ∀ s : State, step s = .next (stepPort s).1 ∧
    ((stepPort s).2 = .continueRun ↔ (stepPort s).1.run = .running) ∧
    (∀ o, (stepPort s).2 = .halted o ↔ (stepPort s).1.run = .halted o) ∧
    ((statusPort s).1 = false ↔ s.run = .running) ∧ (∀ o, (statusPort s).2 = some o ↔ s.run = .halted o)
end

