-- ==== Sys2Proof/Laws/State.lean ====
section
/-! SUPPORT. One lemma per field per update of State, so that no proof unfolds a record update; and the register file's
read-after-write law. -/

namespace Sys2Proof.Machine

variable (s : State) (r q : RegIdx) (v t : Word) (m : Memory) (o : RunOutcome) (k : ErrorKind) (p : Params)

@[simp] theorem State.writeReg_pc : (s.writeReg r v).pc = s.pc := rfl
@[simp] theorem State.writeReg_mem : (s.writeReg r v).mem = s.mem := rfl
@[simp] theorem State.writeReg_run : (s.writeReg r v).run = s.run := rfl
@[simp] theorem State.writeReg_conv : (s.writeReg r v).conv = s.conv := rfl
@[simp] theorem State.writeReg_regs : (s.writeReg r v).regs = writeRegs s.regs r v := rfl
@[simp] theorem State.writeReg_nextPc : (s.writeReg r v).nextPc = s.nextPc := rfl

@[simp] theorem State.setPc_pc : (s.setPc t).pc = t := rfl
@[simp] theorem State.setPc_mem : (s.setPc t).mem = s.mem := rfl
@[simp] theorem State.setPc_run : (s.setPc t).run = s.run := rfl
@[simp] theorem State.setPc_conv : (s.setPc t).conv = s.conv := rfl
@[simp] theorem State.setPc_regs : (s.setPc t).regs = s.regs := rfl
@[simp] theorem State.setPc_readReg : (s.setPc t).readReg r = s.readReg r := rfl

@[simp] theorem State.setMem_pc : (s.setMem m).pc = s.pc := rfl
@[simp] theorem State.setMem_mem : (s.setMem m).mem = m := rfl
@[simp] theorem State.setMem_run : (s.setMem m).run = s.run := rfl
@[simp] theorem State.setMem_conv : (s.setMem m).conv = s.conv := rfl
@[simp] theorem State.setMem_regs : (s.setMem m).regs = s.regs := rfl
@[simp] theorem State.setMem_readReg : (s.setMem m).readReg r = s.readReg r := rfl

@[simp] theorem State.halt_pc : (s.halt o).pc = s.pc := rfl
@[simp] theorem State.halt_mem : (s.halt o).mem = s.mem := rfl
@[simp] theorem State.halt_run : (s.halt o).run = .halted o := rfl
@[simp] theorem State.halt_conv : (s.halt o).conv = s.conv := rfl
@[simp] theorem State.halt_regs : (s.halt o).regs = s.regs := rfl
@[simp] theorem State.halt_readReg : (s.halt o).readReg r = s.readReg r := rfl

@[simp] theorem State.raise_pc : (s.raise k).pc = s.pc := rfl
@[simp] theorem State.raise_mem : (s.raise k).mem = s.mem := rfl
@[simp] theorem State.raise_run : (s.raise k).run = .halted (.error k) := rfl
@[simp] theorem State.raise_conv : (s.raise k).conv = s.conv := rfl
@[simp] theorem State.raise_regs : (s.raise k).regs = s.regs := rfl
@[simp] theorem State.raise_readReg : (s.raise k).readReg r = s.readReg r := rfl

@[simp] theorem State.boot_pc : (State.boot p).pc = p.resetPc := rfl
@[simp] theorem State.boot_mem : (State.boot p).mem = p.initMem := rfl
@[simp] theorem State.boot_run : (State.boot p).run = .running := rfl
@[simp] theorem State.boot_conv : (State.boot p).conv = p.conv := rfl
@[simp] theorem State.boot_regs : (State.boot p).regs = p.initX := rfl

/-- Reading depends on the stored registers alone. -/
theorem State.readReg_congr {s t : State} (h : s.regs = t.regs) (r : RegIdx) : s.readReg r = t.readReg r := by
  simp [State.readReg, h]

/-- Two different non-zero register indices name different stored registers. -/
theorem regIdx_pred_ne {r q : RegIdx} (hr : r ≠ 0#5) (hq : q ≠ 0#5) (h : q ≠ r) : r.toNat - 1 ≠ q.toNat - 1 := by
  have h0 : r.toNat ≠ 0 := fun e => hr (BitVec.eq_of_toNat_eq (by simpa using e))
  have h1 : q.toNat ≠ 0 := fun e => hq (BitVec.eq_of_toNat_eq (by simpa using e))
  have h2 : q.toNat ≠ r.toNat := fun e => h (BitVec.eq_of_toNat_eq e)
  omega

/-- What a register write leaves to be read: `v` in `r` unless `r` is x0, every other register as before. -/
theorem State.readReg_writeReg :
    (s.writeReg r v).readReg q = if q = r ∧ q ≠ 0#5 then v else s.readReg q := by
  by_cases hr : r = 0#5
  · subst hr
    by_cases hq : q = 0#5 <;> simp [State.writeReg, State.readReg, writeRegs, hq]
  · by_cases hq : q = 0#5
    · simp [State.readReg, hq]
    · by_cases h : q = r
      · subst h
        simp [State.writeReg, State.readReg, writeRegs, hq]
      · have hne := regIdx_pred_ne hr hq h
        simp [State.writeReg, State.readReg, writeRegs, hq, hr, h, Vector.getElem_set_ne, hne]

end Sys2Proof.Machine
end

