-- ==== Sys2Proof/Laws/Memory.lean ====
section
/-! SUPPORT. The laws of memory: read after write, and that every write keeps the canonical form. -/

namespace Sys2Proof.Machine

/-- What the canonical form says of a non-empty list. -/
theorem Memory.wfFrom_cons {lo k : Nat} {u : Byte} {rest : Memory} :
    Memory.wfFrom lo ((k, u) :: rest) = true ↔
      lo ≤ k ∧ k < Config.base + Config.capacity ∧ u ≠ unlistedByte ∧ Memory.wfFrom (k + 1) rest = true := by
  simp [Memory.wfFrom, and_assoc]

/-- A lower bound may be lowered. -/
theorem Memory.wfFrom_mono {lo lo' : Nat} (h : lo' ≤ lo) : ∀ {m : Memory}, m.wfFrom lo = true → m.wfFrom lo' = true
  | [], _ => rfl
  | (_, _) :: _, hm => by
    rw [Memory.wfFrom_cons] at hm ⊢
    exact ⟨le_trans h hm.1, hm.2⟩

/-- Below its lower bound a canonical memory lists nothing. -/
theorem Memory.readByte_below {lo a : Nat} (h : a < lo) :
    ∀ {m : Memory}, m.wfFrom lo = true → m.readByte a = unlistedByte
  | [], _ => rfl
  | (k, _) :: _, hm => by
    rw [Memory.wfFrom_cons] at hm
    have hne : ¬ k = a := by omega
    simp only [Memory.readByte, if_neg hne]
    exact Memory.readByte_below (by omega) hm.2.2.2

/-- `consCell` keeps the canonical form. -/
theorem Memory.wfFrom_consCell {lo a : Nat} {v : Byte} {m : Memory} (hlo : lo ≤ a)
    (ha : a < Config.base + Config.capacity) (hm : m.wfFrom (a + 1) = true) : (Memory.consCell a v m).wfFrom lo = true := by
  unfold Memory.consCell
  split
  · exact Memory.wfFrom_mono (by omega) hm
  · exact Memory.wfFrom_cons.mpr ⟨hlo, ha, ‹_›, hm⟩

/-- A byte written inside the window keeps the canonical form. -/
theorem Memory.wfFrom_writeByte {a : Nat} {v : Byte} (ha : a < Config.base + Config.capacity) :
    ∀ {m : Memory} {lo : Nat}, lo ≤ a → m.wfFrom lo = true → (m.writeByte a v).wfFrom lo = true
  | [], _, hlo, _ => Memory.wfFrom_consCell hlo ha rfl
  | (k, u) :: rest, lo, hlo, hm => by
    have hc := Memory.wfFrom_cons.mp hm
    simp only [Memory.writeByte]
    split
    · exact Memory.wfFrom_consCell hlo ha (Memory.wfFrom_cons.mpr ⟨by omega, hc.2⟩)
    · split
      · rename_i h
        exact Memory.wfFrom_consCell hlo ha (h ▸ hc.2.2.2)
      · exact Memory.wfFrom_cons.mpr
          ⟨hc.1, hc.2.1, hc.2.2.1, Memory.wfFrom_writeByte ha (by omega) hc.2.2.2⟩

/-- Reading through `consCell`. -/
theorem Memory.readByte_consCell {a b : Nat} {v : Byte} {m : Memory} (h : m.readByte a = unlistedByte) :
    (Memory.consCell a v m).readByte b = if b = a then v else m.readByte b := by
  unfold Memory.consCell
  split
  · by_cases hb : b = a
    · subst hb; simp_all
    · simp [hb]
  · by_cases hb : b = a
    · subst hb; simp [Memory.readByte]
    · have hn : ¬ a = b := fun e => hb e.symm
      simp [Memory.readByte, hb, hn]

/-- Read after write of one byte. -/
theorem Memory.readByte_writeByte {a b : Nat} {v : Byte} :
    ∀ {m : Memory} {lo : Nat}, m.wfFrom lo = true →
      (m.writeByte a v).readByte b = if b = a then v else m.readByte b
  | [], _, _ => Memory.readByte_consCell rfl
  | (k, u) :: rest, lo, hm => by
    have hc := Memory.wfFrom_cons.mp hm
    simp only [Memory.writeByte]
    split
    · rename_i h
      exact Memory.readByte_consCell (Memory.readByte_below (lo := a + 1) (by omega)
        (Memory.wfFrom_cons.mpr ⟨by omega, hc.2⟩))
    · split
      · rename_i h
        subst h
        rw [Memory.readByte_consCell (Memory.readByte_below (by omega) hc.2.2.2)]
        by_cases hb : b = a
        · simp [hb]
        · have hn : ¬ a = b := fun e => hb e.symm
          simp [Memory.readByte, hb, hn]
      · rename_i hlt hne
        by_cases hk : k = b
        · subst hk
          have hn : ¬ k = a := fun e => hne e.symm
          simp [Memory.readByte, hn]
        · simp only [Memory.readByte, if_neg hk]
          exact Memory.readByte_writeByte hc.2.2.2

/-- Bytes written inside the window keep the canonical form. -/
theorem Memory.wf_writeBytes : ∀ {bs : List Byte} {m : Memory} {a : Nat}, Config.base ≤ a →
    a + bs.length ≤ Config.base + Config.capacity → m.wf = true → (m.writeBytes a bs).wf = true
  | [], _, _, _, _, hm => hm
  | _ :: bs, _, _, hlo, hhi, hm => by
    simp only [List.length_cons] at hhi
    exact Memory.wf_writeBytes (bs := bs) (by omega) (by omega) (Memory.wfFrom_writeByte (by omega) hlo hm)

/-- Read after a write of several bytes inside the window. -/
theorem Memory.readByte_writeBytes : ∀ {bs : List Byte} {m : Memory} {a b : Nat}, Config.base ≤ a →
    a + bs.length ≤ Config.base + Config.capacity → m.wf = true →
    (m.writeBytes a bs).readByte b = if a ≤ b ∧ b < a + bs.length then bs.getD (b - a) 0 else m.readByte b
  | [], _, a, b, _, _, _ => by
    have h : ¬ (a ≤ b ∧ b < a + ([] : List Byte).length) := by simp
    rw [if_neg h]; rfl
  | c :: bs, m, a, b, hlo, hhi, hm => by
    simp only [List.length_cons] at hhi ⊢
    have hw := Memory.wfFrom_writeByte (v := c) (show a < Config.base + Config.capacity by omega) hlo hm
    rw [Memory.writeBytes, Memory.readByte_writeBytes (by omega) (by omega) hw, Memory.readByte_writeByte hm]
    by_cases h : b = a
    · subst h
      simp
    · by_cases h1 : a + 1 ≤ b ∧ b < a + 1 + bs.length
      · have h2 : a ≤ b ∧ b < a + (bs.length + 1) := by omega
        obtain ⟨d, hd⟩ : ∃ d, b - a = d + 1 := ⟨b - a - 1, by omega⟩
        have hd' : b - (a + 1) = d := by omega
        rw [if_pos h1, if_pos h2, hd, hd', List.getD_cons_succ]
      · have h2 : ¬ (a ≤ b ∧ b < a + (bs.length + 1)) := by omega
        rw [if_neg h1, if_neg h2, if_neg h]

/-- InBounds as a proposition (R42). -/
theorem inBounds_iff {a : Word} {w : Nat} :
    inBounds a w = true ↔ Config.base ≤ a.toNat ∧ a.toNat + w ≤ Config.base + Config.capacity := by
  simp [inBounds]

@[simp] theorem bytesOfWord_length (n : Nat) (v : Word) : (bytesOfWord n v).length = n := by
  induction n generalizing v with
  | zero => rfl
  | succ n ih => simp [bytesOfWord, ih]

@[simp] theorem Memory.readBytes_length (m : Memory) (a n : Nat) : (m.readBytes a n).length = n := by
  induction n generalizing a with
  | zero => rfl
  | succ n ih => simp [Memory.readBytes, ih]

/-- Everything a memory write can do: refuse as OutOfBounds, or write exactly its bytes (R43, R47). -/
theorem memWrite_cases {m : Memory} {a v : Word} {n : AccessWidth} :
    (inBounds a n.bytes = false ∧ memWrite m a n v = .error .outOfBounds) ∨
      (inBounds a n.bytes = true ∧ memWrite m a n v = .ok (m.writeBytes a.toNat (bytesOfWord n.bytes v))) := by
  unfold memWrite
  cases inBounds a n.bytes <;> simp

/-- Everything a memory read can do (R46). -/
theorem memRead_cases {m : Memory} {a : Word} {n : AccessWidth} :
    (inBounds a n.bytes = false ∧ memRead m a n = .error .outOfBounds) ∨
      (inBounds a n.bytes = true ∧ memRead m a n = .ok (wordOfBytes (m.readBytes a.toNat n.bytes))) := by
  unfold memRead
  cases inBounds a n.bytes <;> simp

/-- A memory write keeps the canonical form. -/
theorem memWrite_wf {m m' : Memory} {a v : Word} {n : AccessWidth} (hm : m.wf = true)
    (h : memWrite m a n v = .ok m') : m'.wf = true := by
  obtain ⟨_, he⟩ | ⟨hb, he⟩ := memWrite_cases (m := m) (a := a) (v := v) (n := n) <;> rw [he] at h
  · cases h
  · cases h
    obtain ⟨h1, h2⟩ := inBounds_iff.mp hb
    exact Memory.wf_writeBytes h1 (by simpa using h2) hm

/-- Loading a segment keeps the canonical form. -/
theorem loadSegment_wf {m m' : Memory} {seg : Segment} (hm : m.wf = true) (h : loadSegment m seg = .ok m') :
    m'.wf = true := by
  unfold loadSegment at h
  split at h
  · rename_i hb
    cases h
    obtain ⟨h1, h2⟩ := inBounds_iff.mp hb
    exact Memory.wf_writeBytes h1 h2 hm
  · cases h

/-! ## The little-endian value, byte by byte (R46, R48) -/

/-- Bit `i` of a little-endian value is bit `i mod 8` of byte `i / 8`. -/
theorem wordOfBytes_getLsbD (bs : List Byte) (i : Nat) (hi : i < 32) :
    (wordOfBytes bs).getLsbD i = (bs.getD (i / 8) 0).getLsbD (i % 8) := by
  induction bs generalizing i with
  | nil => simp [wordOfBytes]
  | cons b bs ih =>
    by_cases h : i < 8
    · have h0 : i / 8 = 0 := by omega
      have h1 : i % 8 = i := by omega
      simp [wordOfBytes, hi, h, h0, h1]
    · obtain ⟨j, rfl⟩ : ∃ j, i = j + 8 := ⟨i - 8, by omega⟩
      have h0 : (j + 8) / 8 = j / 8 + 1 := by omega
      have h1 : (j + 8) % 8 = j % 8 := by omega
      have hj : j < 32 := by omega
      rw [h0, h1, List.getD_cons_succ, ← ih j hj]
      simp [wordOfBytes, hi, BitVec.getLsbD_eq_getElem hj]

/-- Bit `i` of two bytes put together. -/
theorem append_getLsbD_two (b1 b0 : Byte) (i : Nat) :
    (b1 ++ b0).getLsbD i = if i < 8 then b0.getLsbD i else b1.getLsbD (i - 8) :=
  BitVec.getLsbD_append

/-- Bit `i` of four bytes put together. -/
theorem append_getLsbD_four (b3 b2 b1 b0 : Byte) (i : Nat) :
    (b3 ++ b2 ++ b1 ++ b0 : Word).getLsbD i =
      if i < 8 then b0.getLsbD i else if i - 8 < 8 then b1.getLsbD (i - 8)
      else if i - 8 - 8 < 8 then b2.getLsbD (i - 8 - 8) else b3.getLsbD (i - 8 - 8 - 8) :=
  BitVec.getLsbD_append.trans (by rw [BitVec.getLsbD_append, BitVec.getLsbD_append])

theorem wordOfBytes_one (b0 : Byte) : wordOfBytes [b0] = b0.setWidth 32 := by
  simp [wordOfBytes]

theorem wordOfBytes_two (b0 b1 : Byte) : wordOfBytes [b0, b1] = (b1 ++ b0).setWidth 32 := by
  apply BitVec.eq_of_getLsbD_eq
  intro i hi
  rw [wordOfBytes_getLsbD _ _ hi, BitVec.getLsbD_setWidth, append_getLsbD_two]
  obtain h | h | h : i / 8 = 0 ∨ i / 8 = 1 ∨ 2 ≤ i / 8 := by omega
  · have h0 : i < 8 := by omega
    simp [h, hi, h0, Nat.mod_eq_of_lt h0]
  · have h0 : ¬ i < 8 := by omega
    have h1 : i % 8 = i - 8 := by omega
    simp [h, hi, h0, h1]
  · have h0 : ¬ i < 8 := by omega
    have hz : b1.getLsbD (i - 8) = false := b1.getLsbD_of_ge _ (by omega)
    obtain ⟨d, hd⟩ : ∃ d, i / 8 = d + 2 := ⟨i / 8 - 2, by omega⟩
    simp [hd, hi, h0, hz]

theorem wordOfBytes_four (b0 b1 b2 b3 : Byte) : wordOfBytes [b0, b1, b2, b3] = b3 ++ b2 ++ b1 ++ b0 := by
  apply BitVec.eq_of_getLsbD_eq
  intro i hi
  rw [wordOfBytes_getLsbD _ _ hi, append_getLsbD_four]
  obtain h | h | h | h : i / 8 = 0 ∨ i / 8 = 1 ∨ i / 8 = 2 ∨ i / 8 = 3 := by omega
  · have h0 : i < 8 := by omega
    simp [h, h0, Nat.mod_eq_of_lt h0]
  · have h0 : ¬ i < 8 := by omega
    have h1 : i - 8 < 8 := by omega
    have hm : i % 8 = i - 8 := by omega
    simp only [h, h0, h1, hm, if_true, if_false]; rfl
  · have h0 : ¬ i < 8 := by omega
    have h1 : ¬ i - 8 < 8 := by omega
    have h2 : i - 8 - 8 < 8 := by omega
    have hm : i % 8 = i - 8 - 8 := by omega
    simp only [h, h0, h1, h2, hm, if_true, if_false]; rfl
  · have h0 : ¬ i < 8 := by omega
    have h1 : ¬ i - 8 < 8 := by omega
    have h2 : ¬ i - 8 - 8 < 8 := by omega
    have hm : i % 8 = i - 8 - 8 - 8 := by omega
    simp only [h, h0, h1, h2, hm, if_false]; rfl

/-- Byte `k` of a word is its bits 8k+7 : 8k (R47). -/
theorem bytesOfWord_getD (n k : Nat) (v : Word) (h : k < n) :
    (bytesOfWord n v).getD k 0 = v.extractLsb' (8 * k) 8 := by
  induction n generalizing k v with
  | zero => omega
  | succ n ih =>
    cases k with
    | zero => apply BitVec.eq_of_getLsbD_eq; intro i hi; simp [bytesOfWord, hi]
    | succ k =>
      rw [bytesOfWord, List.getD_cons_succ, ih k _ (by omega)]
      apply BitVec.eq_of_getLsbD_eq
      intro i hi
      simp only [BitVec.getLsbD_extractLsb', BitVec.getLsbD_ushiftRight]
      congr 2
      omega

/-- The four bytes of a word give the word back. -/
theorem wordOfBytes_bytesOfWord (v : Word) : wordOfBytes (bytesOfWord 4 v) = v := by
  apply BitVec.eq_of_getLsbD_eq
  intro i hi
  have hk : i / 8 < 4 := by omega
  have hm : i % 8 < 8 := by omega
  rw [wordOfBytes_getLsbD _ _ hi, bytesOfWord_getD _ _ _ hk, BitVec.getLsbD_extractLsb']
  have he : 8 * (i / 8) + i % 8 = i := by omega
  simp [hm, he]

end Sys2Proof.Machine
end

