-- ==== Sys2Proof/Laws/Ops.lean ====
section
/-! SUPPORT. One lemma per shared operation that says everything it can do; the inversion of `exec` and of `step` that
every claim about all instructions starts from. -/

namespace Sys2Proof.Machine

/-- Fetching never does anything but answer the word at pc or OutOfBounds (R45). -/
theorem fetchWord_cases {m : Memory} {a : Word} :
    (inBounds a 4 = false ∧ fetchWord m a = .error .outOfBounds) ∨
      (inBounds a 4 = true ∧ fetchWord m a = .ok (wordOfBytes (m.readBytes a.toNat 4))) := by
  unfold fetchWord
  cases inBounds a 4 <;> simp

/-- A load either takes OutOfBounds or retires the extended value (R170). -/
theorem load_cases (s : State) (n : AccessWidth) (ext : Word → Word) (rd : RegIdx) (ea : Word) :
    (inBounds ea n.bytes = false ∧ load s n ext rd ea = .next (s.raise .outOfBounds)) ∨
      (inBounds ea n.bytes = true ∧
        load s n ext rd ea = retire s rd (ext (wordOfBytes (s.mem.readBytes ea.toNat n.bytes)))) := by
  obtain ⟨hb, h⟩ | ⟨hb, h⟩ := memRead_cases (m := s.mem) (a := ea) (n := n)
  · exact .inl ⟨hb, by simp only [load, h]⟩
  · exact .inr ⟨hb, by simp only [load, h]⟩

/-- A store either takes OutOfBounds or writes its bytes and advances (R176). -/
theorem store_cases (s : State) (n : AccessWidth) (ea v : Word) :
    (inBounds ea n.bytes = false ∧ store s n ea v = .next (s.raise .outOfBounds)) ∨
      (inBounds ea n.bytes = true ∧
        store s n ea v =
          .next ((s.setMem (s.mem.writeBytes ea.toNat (bytesOfWord n.bytes v))).setPc s.nextPc)) := by
  obtain ⟨hb, h⟩ | ⟨hb, h⟩ := memWrite_cases (m := s.mem) (a := ea) (v := v) (n := n)
  · exact .inl ⟨hb, by simp only [store, h]⟩
  · exact .inr ⟨hb, by simp only [store, h]⟩

/-- The shapes of a next state: a register write and a pc, a pc alone, a store, or a halt. -/
inductive Shape (s : State) : State → Prop where
  | wrote (rd : RegIdx) (v t : Word) : Shape s ((s.writeReg rd v).setPc t)
  | went (t : Word) : Shape s (s.setPc t)
  | stored (n : AccessWidth) (ea v : Word) (hb : inBounds ea n.bytes = true) :
      Shape s ((s.setMem (s.mem.writeBytes ea.toNat (bytesOfWord n.bytes v))).setPc s.nextPc)
  | stopped (o : RunOutcome) : Shape s (s.halt o)

/-- Loads and stores have one of these shapes. -/
theorem load_shape {s t : State} {n : AccessWidth} {ext : Word → Word} {rd : RegIdx} {ea : Word}
    (h : load s n ext rd ea = .next t) : Shape s t := by
  obtain ⟨_, e⟩ | ⟨_, e⟩ := load_cases s n ext rd ea <;> rw [e] at h <;> cases h
  · exact .stopped _
  · exact .wrote _ _ _

theorem store_shape {s t : State} {n : AccessWidth} {ea v : Word} (h : store s n ea v = .next t) : Shape s t := by
  obtain ⟨_, e⟩ | ⟨hb, e⟩ := store_cases s n ea v <;> rw [e] at h <;> cases h
  · exact .stopped _
  · exact .stored _ _ _ hb

/-- Everything an instruction can do to the state. -/
theorem exec_shape {i : Instr} {s t : State} (h : exec i s = .next t) : Shape s t := by
  cases i
  case lb | lh | lw | lbu | lhu => exact load_shape h
  case sb | sh | sw => exact store_shape h
  case beq | bne | blt | bge | bltu | bgeu | fence => cases h; exact .went _
  case ecall => cases h; exact .stopped _
  all_goals cases h; exact .wrote _ _ _

/-- Everything a step can do: nothing when halted, take a fetch or decode error, or run the fetched instruction. -/
theorem step_cases (s : State) :
    (∃ o, s.run = .halted o ∧ step s = .next s) ∨
      (∃ k, s.run = .running ∧ fetchInstr s = .error k ∧ step s = .next (s.raise k)) ∨
      (∃ i, s.run = .running ∧ fetchInstr s = .ok i ∧ step s = exec i s) := by
  unfold step
  split
  · exact .inl ⟨_, ‹_›, rfl⟩
  · split
    · exact .inr (.inl ⟨_, ‹_›, ‹_›, rfl⟩)
    · exact .inr (.inr ⟨_, ‹_›, ‹_›, rfl⟩)

/-- A step leaves the state alone or gives it one of the shapes. -/
theorem step_shape {s t : State} (h : step s = .next t) : t = s ∨ Shape s t := by
  obtain ⟨_, _, e⟩ | ⟨_, _, _, e⟩ | ⟨_, _, _, e⟩ := step_cases s <;> rw [e] at h
  · cases h; exact .inl rfl
  · cases h; exact .inr (.stopped _)
  · exact .inr (exec_shape h)

end Sys2Proof.Machine
end

