-- ==== Sys2Proof/Laws/PerInstr.lean ====
section
/-! SUPPORT. Facts about every instruction as syntax, one lemma per constructor. EncodedOpcode: the word of an instruction
carries the opcode of its class in bits 6:0 (spec/30_encoding.md R71, R81). -/

namespace Sys2Proof.Laws.EncodedOpcode

/-- The opcode field of the encoding is the class's opcode. -/
def Statement (i : Instr) : Prop := opcodeOf (encode i) = i.opClass.opcode

/-- Taking the low bits of a concatenation whose low part is that wide gives the low part. -/
theorem low_of_append {n m : Nat} (x : BitVec n) (y : BitVec m) : (x ++ y).extractLsb' 0 m = y := by
  apply BitVec.eq_of_getLsbD_eq
  intro i hi
  simp [BitVec.getLsbD_append, hi]

theorem lui (rd : RegIdx) (imm : BitVec 20) : Statement (.lui rd imm) := low_of_append _ _
theorem auipc (rd : RegIdx) (imm : BitVec 20) : Statement (.auipc rd imm) := low_of_append _ _
theorem jal (rd : RegIdx) (imm : BitVec 21) : Statement (.jal rd imm) := low_of_append _ _
theorem jalr (rd : RegIdx) (rs1 : RegIdx) (imm : BitVec 12) : Statement (.jalr rd rs1 imm) := low_of_append _ _
theorem beq (rs1 : RegIdx) (rs2 : RegIdx) (imm : BitVec 13) : Statement (.beq rs1 rs2 imm) := low_of_append _ _
theorem bne (rs1 : RegIdx) (rs2 : RegIdx) (imm : BitVec 13) : Statement (.bne rs1 rs2 imm) := low_of_append _ _
theorem blt (rs1 : RegIdx) (rs2 : RegIdx) (imm : BitVec 13) : Statement (.blt rs1 rs2 imm) := low_of_append _ _
theorem bge (rs1 : RegIdx) (rs2 : RegIdx) (imm : BitVec 13) : Statement (.bge rs1 rs2 imm) := low_of_append _ _
theorem bltu (rs1 : RegIdx) (rs2 : RegIdx) (imm : BitVec 13) : Statement (.bltu rs1 rs2 imm) := low_of_append _ _
theorem bgeu (rs1 : RegIdx) (rs2 : RegIdx) (imm : BitVec 13) : Statement (.bgeu rs1 rs2 imm) := low_of_append _ _
theorem lb (rd : RegIdx) (rs1 : RegIdx) (imm : BitVec 12) : Statement (.lb rd rs1 imm) := low_of_append _ _
theorem lh (rd : RegIdx) (rs1 : RegIdx) (imm : BitVec 12) : Statement (.lh rd rs1 imm) := low_of_append _ _
theorem lw (rd : RegIdx) (rs1 : RegIdx) (imm : BitVec 12) : Statement (.lw rd rs1 imm) := low_of_append _ _
theorem lbu (rd : RegIdx) (rs1 : RegIdx) (imm : BitVec 12) : Statement (.lbu rd rs1 imm) := low_of_append _ _
theorem lhu (rd : RegIdx) (rs1 : RegIdx) (imm : BitVec 12) : Statement (.lhu rd rs1 imm) := low_of_append _ _
theorem sb (rs1 : RegIdx) (rs2 : RegIdx) (imm : BitVec 12) : Statement (.sb rs1 rs2 imm) := low_of_append _ _
theorem sh (rs1 : RegIdx) (rs2 : RegIdx) (imm : BitVec 12) : Statement (.sh rs1 rs2 imm) := low_of_append _ _
theorem sw (rs1 : RegIdx) (rs2 : RegIdx) (imm : BitVec 12) : Statement (.sw rs1 rs2 imm) := low_of_append _ _
theorem addi (rd : RegIdx) (rs1 : RegIdx) (imm : BitVec 12) : Statement (.addi rd rs1 imm) := low_of_append _ _
theorem slti (rd : RegIdx) (rs1 : RegIdx) (imm : BitVec 12) : Statement (.slti rd rs1 imm) := low_of_append _ _
theorem sltiu (rd : RegIdx) (rs1 : RegIdx) (imm : BitVec 12) : Statement (.sltiu rd rs1 imm) := low_of_append _ _
theorem xori (rd : RegIdx) (rs1 : RegIdx) (imm : BitVec 12) : Statement (.xori rd rs1 imm) := low_of_append _ _
theorem ori (rd : RegIdx) (rs1 : RegIdx) (imm : BitVec 12) : Statement (.ori rd rs1 imm) := low_of_append _ _
theorem andi (rd : RegIdx) (rs1 : RegIdx) (imm : BitVec 12) : Statement (.andi rd rs1 imm) := low_of_append _ _
theorem slli (rd : RegIdx) (rs1 : RegIdx) (shamt : BitVec 5) : Statement (.slli rd rs1 shamt) := low_of_append _ _
theorem srli (rd : RegIdx) (rs1 : RegIdx) (shamt : BitVec 5) : Statement (.srli rd rs1 shamt) := low_of_append _ _
theorem srai (rd : RegIdx) (rs1 : RegIdx) (shamt : BitVec 5) : Statement (.srai rd rs1 shamt) := low_of_append _ _
theorem add (rd : RegIdx) (rs1 : RegIdx) (rs2 : RegIdx) : Statement (.add rd rs1 rs2) := low_of_append _ _
theorem sub (rd : RegIdx) (rs1 : RegIdx) (rs2 : RegIdx) : Statement (.sub rd rs1 rs2) := low_of_append _ _
theorem sll (rd : RegIdx) (rs1 : RegIdx) (rs2 : RegIdx) : Statement (.sll rd rs1 rs2) := low_of_append _ _
theorem slt (rd : RegIdx) (rs1 : RegIdx) (rs2 : RegIdx) : Statement (.slt rd rs1 rs2) := low_of_append _ _
theorem sltu (rd : RegIdx) (rs1 : RegIdx) (rs2 : RegIdx) : Statement (.sltu rd rs1 rs2) := low_of_append _ _
theorem xor (rd : RegIdx) (rs1 : RegIdx) (rs2 : RegIdx) : Statement (.xor rd rs1 rs2) := low_of_append _ _
theorem srl (rd : RegIdx) (rs1 : RegIdx) (rs2 : RegIdx) : Statement (.srl rd rs1 rs2) := low_of_append _ _
theorem sra (rd : RegIdx) (rs1 : RegIdx) (rs2 : RegIdx) : Statement (.sra rd rs1 rs2) := low_of_append _ _
theorem or (rd : RegIdx) (rs1 : RegIdx) (rs2 : RegIdx) : Statement (.or rd rs1 rs2) := low_of_append _ _
theorem and (rd : RegIdx) (rs1 : RegIdx) (rs2 : RegIdx) : Statement (.and rd rs1 rs2) := low_of_append _ _
theorem fence (fm : BitVec 4) (pred : BitVec 4) (succ : BitVec 4) (rs1 : RegIdx) (rd : RegIdx) : Statement (.fence fm pred succ rs1 rd) := low_of_append _ _
theorem ecall : Statement .ecall := low_of_append _ _

end Sys2Proof.Laws.EncodedOpcode
end

