-- ==== Sys2Proof/Tests/Slice0.lean ====
section
/-! SUPPORT. Tests. Expected results come from spec/95_test_vectors.md (the row is named in each comment) or are written out
from the encoding tables of spec/30_encoding.md. The last section shows that the hypotheses of the statements can be met. -/

namespace Sys2Proof.Tests

open Sys2Proof Sys2Proof.Machine Sys2Proof.Safety Sys2Proof.Claims

/-- The reset state with some registers set and another pc. -/
def st (rs : List (RegIdx × Word)) (pc : Word := 0x80000000#32) : State :=
  rs.foldl (fun s p => s.writeReg p.1 p.2) (State.reset.setPc pc)

/-- A state with a little-endian word placed in memory. -/
def State.withWord (s : State) (a : Nat) (w : Word) : State := s.setMem (s.mem.writeBytes a (bytesOfWord 4 w))

/-- The state after one step that runs the word. -/
def ran (s : State) (w : Nat) : State := cycle (s.withFetchWord 32 w)

/-! ## WellFormed: one ill-formed term for each check -/

/-- R76: a J-immediate is even. -/
theorem test_wf_refuses_odd_jump : (Instr.jal 1#5 3#21).wf = false := by decide

/-- R74: a B-immediate is even. -/
theorem test_wf_refuses_odd_branches :
    [Instr.beq 1 2 1, .bne 1 2 3, .blt 1 2 5, .bge 1 2 7, .bltu 1 2 9, .bgeu 1 2 4095].all (fun i => !i.wf) = true := by decide


/-! ## Decoding: one word per constructor, field by field as R78 and R81 to R89 lay them out -/

theorem test_decode_lui : decodeWord 0b00010010001101000101_00101_0110111#32 = .ok (.lui 5 0x12345) := by decide

theorem test_decode_auipc : decodeWord 0b10000000000000000000_00101_0010111#32 = .ok (.auipc 5 0x80000) := by decide

theorem test_decode_jal : decodeWord 0b1_1111111110_1_11111111_00000_1101111#32 = .ok (.jal 0 (-4)) := by decide

theorem test_decode_jalr : decodeWord 0b000000000101_00010_000_00001_1100111#32 = .ok (.jalr 1 2 5) := by decide

theorem test_decode_beq : decodeWord 0b1_111111_00010_00001_000_1110_1_1100011#32 = .ok (.beq 1 2 (-4)) := by decide

theorem test_decode_bne : decodeWord 0b0_000000_00010_00001_001_1000_0_1100011#32 = .ok (.bne 1 2 16) := by decide

theorem test_decode_blt : decodeWord 0b1_111111_00010_00001_100_1100_1_1100011#32 = .ok (.blt 1 2 (-8)) := by decide

theorem test_decode_bge : decodeWord 0b0_000000_00010_00001_101_0110_0_1100011#32 = .ok (.bge 1 2 12) := by decide

theorem test_decode_bltu : decodeWord 0b0_000000_00010_00001_110_0110_0_1100011#32 = .ok (.bltu 1 2 12) := by decide

theorem test_decode_bgeu : decodeWord 0b0_000000_00010_00001_111_0110_0_1100011#32 = .ok (.bgeu 1 2 12) := by decide

theorem test_decode_lb : decodeWord 0b000000000001_00001_000_00011_0000011#32 = .ok (.lb 3 1 1) := by decide

theorem test_decode_lh : decodeWord 0b000000000010_00001_001_00011_0000011#32 = .ok (.lh 3 1 2) := by decide

theorem test_decode_lw : decodeWord 0b111111111100_00001_010_00011_0000011#32 = .ok (.lw 3 1 (-4)) := by decide

theorem test_decode_lbu : decodeWord 0b000000000001_00001_100_00011_0000011#32 = .ok (.lbu 3 1 1) := by decide

theorem test_decode_lhu : decodeWord 0b000000000010_00001_101_00011_0000011#32 = .ok (.lhu 3 1 2) := by decide

theorem test_decode_sb : decodeWord 0b1111111_00010_00001_000_11111_0100011#32 = .ok (.sb 1 2 (-1)) := by decide

theorem test_decode_sh : decodeWord 0b0111111_00010_00001_001_11111_0100011#32 = .ok (.sh 1 2 2047) := by decide

theorem test_decode_sw : decodeWord 0b0000000_00010_00001_010_00000_0100011#32 = .ok (.sw 1 2 0) := by decide

theorem test_decode_addi : decodeWord 0b111111111111_00110_000_00101_0010011#32 = .ok (.addi 5 6 (-1)) := by decide

theorem test_decode_slti : decodeWord 0b111111111111_00110_010_00101_0010011#32 = .ok (.slti 5 6 (-1)) := by decide

theorem test_decode_sltiu : decodeWord 0b111111111111_00110_011_00101_0010011#32 = .ok (.sltiu 5 6 (-1)) := by decide

theorem test_decode_xori : decodeWord 0b111111111111_00110_100_00101_0010011#32 = .ok (.xori 5 6 (-1)) := by decide

theorem test_decode_ori : decodeWord 0b011111110000_00110_110_00101_0010011#32 = .ok (.ori 5 6 0x7F0) := by decide

theorem test_decode_andi : decodeWord 0b111111110000_00110_111_00101_0010011#32 = .ok (.andi 5 6 (-16)) := by decide

theorem test_decode_slli : decodeWord 0b0000000_11111_00110_001_00101_0010011#32 = .ok (.slli 5 6 31) := by decide

theorem test_decode_srli : decodeWord 0b0000000_00100_00110_101_00101_0010011#32 = .ok (.srli 5 6 4) := by decide

theorem test_decode_srai : decodeWord 0b0100000_00100_00110_101_00101_0010011#32 = .ok (.srai 5 6 4) := by decide

theorem test_decode_add : decodeWord 0b0000000_00111_00110_000_00101_0110011#32 = .ok (.add 5 6 7) := by decide

theorem test_decode_sub : decodeWord 0b0100000_00111_00110_000_00101_0110011#32 = .ok (.sub 5 6 7) := by decide

theorem test_decode_sll : decodeWord 0b0000000_00111_00110_001_00101_0110011#32 = .ok (.sll 5 6 7) := by decide

theorem test_decode_slt : decodeWord 0b0000000_00111_00110_010_00101_0110011#32 = .ok (.slt 5 6 7) := by decide

theorem test_decode_sltu : decodeWord 0b0000000_00111_00110_011_00101_0110011#32 = .ok (.sltu 5 6 7) := by decide

theorem test_decode_xor : decodeWord 0b0000000_00111_00110_100_00101_0110011#32 = .ok (.xor 5 6 7) := by decide

theorem test_decode_srl : decodeWord 0b0000000_00111_00110_101_00101_0110011#32 = .ok (.srl 5 6 7) := by decide

theorem test_decode_sra : decodeWord 0b0100000_00111_00110_101_00101_0110011#32 = .ok (.sra 5 6 7) := by decide

theorem test_decode_or : decodeWord 0b0000000_00111_00110_110_00101_0110011#32 = .ok (.or 5 6 7) := by decide

theorem test_decode_and : decodeWord 0b0000000_00111_00110_111_00101_0110011#32 = .ok (.and 5 6 7) := by decide

theorem test_decode_fence :
    decodeWord 0b1000_0011_0011_01011_000_00101_0001111#32 = .ok (.fence 8 3 3 11 5) := by decide

theorem test_decode_ecall : decodeWord 0b000000000000_00000_000_00000_1110011#32 = .ok (.ecall) := by decide

/-- TV2.8, TV2.6, TV2.7: EBREAK, FENCE.I, SLLI with funct7 = 0100000, MUL, JALR with funct3 = 1, LOAD funct3 = 3. -/
theorem test_decode_illegal :
    [0x00100073#32, 0x0000100F#32, 0x40001013#32, 0x02000033#32, 0x00001067#32, 0x0000B183#32].all
      (fun w => decodeWord w = .error .illegalInstruction) = true := by decide

/-- TV2.9: all zero, all ones, a compressed-looking word, custom-0, AMO. -/
theorem test_decode_unknown : [0x00000000#32, 0xFFFFFFFF#32, 0x00000002#32, 0x0000000B#32, 0x0000002F#32].all
      (fun w => decodeWord w = .error .unknownOpcode) = true := by decide

/-- The bytes of a word in memory order (R45). -/
theorem test_decode_bytes :
    decodeBytes [0x93#8, 0x00#8, 0x50#8, 0x00#8, 0xAA#8] = .ok (.addi 1 0 5, [0xAA#8]) := by decide

/-- The table's numbering of bits. -/
theorem test_decode_table_word :
    decodeTableWord 32 0x00500093 = some (.addi 1 0 5) ∧ decodeTableWord 32 0 = none := by decide

/-- TV1.4, rows 4, 6, 7: the five immediates. -/
theorem test_immediates : (fieldsOf 0x7FFFFFFF#32).immB = 0xFFE#32 ∧ (fieldsOf 0x00000080#32).immB = 0x800#32 ∧
      (fieldsOf 0x00100000#32).immJ = 0x800#32 ∧ (fieldsOf 0x80000080#32).immS = 0xFFFFF801#32 := by decide


/-! ## One step per instruction -/

/-- TV2.1 -/
theorem test_lui : (ran (st []) 0x123452B7).readReg 5 = 0x12345000#32 ∧
      (ran (st []) 0x123452B7).pc = 0x80000004#32 := by decide

/-- TV2.1: wraps -/
theorem test_auipc_wraps : (ran (st []) 0x80000297).readReg 5 = 0x00000000#32 := by decide

/-- TV2.2 -/
theorem test_jal_links : (ran (st []) 0x008000EF).readReg 1 = 0x80000004#32 ∧
      (ran (st []) 0x008000EF).pc = 0x80000008#32 := by decide

/-- TV2.2: backwards; x0 takes no link -/
theorem test_jal_back : (ran (st [] 0x80000010#32) 0xFFDFF06F).pc = 0x8000000C#32 := by decide

/-- TV2.2: the target uses the old x1, bit 0 cleared -/
theorem test_jalr_same_register : (ran (st [(1, 0x80000021#32)]) 0x000080E7).readReg 1 = 0x80000004#32 ∧
      (ran (st [(1, 0x80000021#32)]) 0x000080E7).pc = 0x80000020#32 := by decide

/-- TV2.2: wraps -/
theorem test_jalr_wraps : (ran (st [(2, 0xFFFFFFFF#32)] 0x80000000#32) 0x001102E7).pc = 0x00000000#32 := by decide

/-- TV1.5 -/
theorem test_blt_sign :
    (ran (st [(1, 0x80000000#32), (2, 0x00000001#32)] 0x80001000#32) 0x0020C463).pc = 0x80001008#32 := by decide

/-- TV1.5 -/
theorem test_bge_sign :
    (ran (st [(1, 0x80000000#32), (2, 0x00000001#32)] 0x80001000#32) 0x0020D463).pc = 0x80001004#32 := by decide

/-- TV1.5 -/
theorem test_bltu_sign :
    (ran (st [(1, 0x80000000#32), (2, 0x00000001#32)] 0x80001000#32) 0x0020E463).pc = 0x80001004#32 := by decide

/-- TV1.5 -/
theorem test_bgeu_sign :
    (ran (st [(1, 0x80000000#32), (2, 0x00000001#32)] 0x80001000#32) 0x0020F463).pc = 0x80001008#32 := by decide

/-- TV2.3: equal, backwards -/
theorem test_beq_taken :
    (ran (st [(1, 0x00000005#32), (2, 0x00000005#32)] 0x80001000#32) 0xFE208EE3).pc = 0x80000FFC#32 := by decide

/-- TV2.3 -/
theorem test_beq_not_taken :
    (ran (st [(1, 0x00000005#32), (2, 0x00000006#32)] 0x80001000#32) 0xFE208EE3).pc = 0x80001004#32 := by decide

/-- TV2.3: smallest offset -/
theorem test_bne_smallest_offset :
    (ran (st [(1, 0x00000001#32)] 0x80001000#32) 0x80009063).pc = 0x80000000#32 := by decide

/-- TV2.3 -/
theorem test_bne_same_register :
    (ran (st [(1, 0x00000005#32)] 0x80001000#32) 0x00109463).pc = 0x80001004#32 := by decide

/-- TV2.3: equal operands -/
theorem test_blt_equal :
    (ran (st [(1, 0x00000003#32), (2, 0x00000003#32)] 0x80001000#32) 0x0020C463).pc = 0x80001004#32 := by decide

/-- TV2.3 -/
theorem test_bge_signed :
    (ran (st [(1, 0x7FFFFFFF#32), (2, 0x80000000#32)] 0x80001000#32) 0x0020D463).pc = 0x80001008#32 := by decide

/-- TV2.3 -/
theorem test_bltu_taken :
    (ran (st [(1, 0x00000000#32), (2, 0xFFFFFFFF#32)] 0x80001000#32) 0x0020E463).pc = 0x80001008#32 := by decide

/-- TV2.3 -/
theorem test_bgeu_not_taken : (ran (st [(1, 0x00000001#32)] 0x80001000#32) 0x00107463).pc = 0x80001004#32 := by decide

/-- TV2.4 -/
theorem test_lb :
    (ran (State.withWord (st [(1, 0x80000100#32)]) 0x80000100 0x1234F680#32) 0x00108183).readReg 3 = 0xFFFFFFF6#32 := by decide

/-- TV2.4 -/
theorem test_lbu :
    (ran (State.withWord (st [(1, 0x80000100#32)]) 0x80000100 0x1234F680#32) 0x0010C183).readReg 3 = 0x000000F6#32 := by decide

/-- TV2.4 -/
theorem test_lh :
    (ran (State.withWord (st [(1, 0x80000100#32)]) 0x80000100 0x8001F680#32) 0x00209183).readReg 3 = 0xFFFF8001#32 := by decide

/-- TV2.4: misaligned -/
theorem test_lhu_misaligned :
    (ran (State.withWord (State.withWord (st [(1, 0x80000100#32)]) 0x80000100 0x44332211#32) 0x80000104 0x88776655#32) 0x0030D183).readReg 3 = 0x00005544#32 := by decide

/-- TV2.4: misaligned -/
theorem test_lw_misaligned :
    (ran (State.withWord (State.withWord (st [(1, 0x80000100#32)]) 0x80000100 0x44332211#32) 0x80000104 0x88776655#32) 0x0010A183).readReg 3 = 0x55443322#32 := by decide

/-- TV2.4: the address wraps into the window and reads this word -/
theorem test_lw_wraps : (ran (st [(1, 0x7FFFF801#32)]) 0x7FF0A183).readReg 3 = 0x7FF0A183#32 := by decide

/-- TV2.4: the check applies with rd = x0; nothing else changes. -/
theorem test_lw_out_of_bounds : ran (st [(1, 0xFFFFFFFC#32)]) 0x0000A003 =
      ((st [(1, 0xFFFFFFFC#32)]).withFetchWord 32 0x0000A003).raise .outOfBounds := by decide

/-- TV2.5 -/
theorem test_sb : (ran (st [(1, 0x80000200#32), (2, 0xCAFEBABE#32)]) 0x002081A3).mem.readBytes 0x80000200 5 =
      [0x00#8, 0x00#8, 0x00#8, 0xBE#8, 0x00#8] := by decide

/-- TV2.5: misaligned -/
theorem test_sh_misaligned :
    (ran (st [(1, 0x80000200#32), (2, 0xCAFEBABE#32)]) 0x002090A3).mem.readBytes 0x80000200 4 =
      [0x00#8, 0xBE#8, 0xBA#8, 0x00#8] := by decide

/-- TV2.5: the last two bytes of the window -/
theorem test_sh_top : (ran (st [(1, 0x80FFF7FF#32), (2, 0x1234ABCD#32)]) 0x7E209FA3).mem.readBytes 0x80FFFFFE 2 =
      [0xCD#8, 0xAB#8] := by decide

/-- TV2.5: the last word -/
theorem test_sw_top : (ran (st [(1, 0x80FFFFFC#32), (2, 0x12345678#32)]) 0x0020A023).mem.readBytes 0x80FFFFFC 4 =
      [0x78#8, 0x56#8, 0x34#8, 0x12#8] := by decide

/-- TV2.5: zeros over FF, misaligned -/
theorem test_sw_zero_over_ones :
    (ran (State.withWord (State.withWord (st [(1, 0x80000100#32), (2, 0x00000000#32)]) 0x80000100 0xFFFFFFFF#32) 0x80000104 0xFFFFFFFF#32) 0x0000A1A3).mem.readBytes 0x80000100 8 =
      [0xFF#8, 0xFF#8, 0xFF#8, 0x00#8, 0x00#8, 0x00#8, 0x00#8, 0xFF#8] := by decide

/-- TV1.10, TV2.5: no partial write. -/
theorem test_sw_out_of_bounds : ran (st [(1, 0x80FFFFFD#32), (2, 7#32)]) 0x0020A023 =
      ((st [(1, 0x80FFFFFD#32), (2, 7#32)]).withFetchWord 32 0x0020A023).raise .outOfBounds := by decide

/-- TV2.6 -/
theorem test_addi_wraps : (ran (st [(6, 0x7FFFFFFF#32)]) 0x00130293).readReg 5 = 0x80000000#32 := by decide

/-- TV2.6 -/
theorem test_slti : (ran (st [(6, 0x80000000#32)]) 0x80032293).readReg 5 = 0x00000001#32 := by decide

/-- TV2.6 -/
theorem test_slti_equal : (ran (st [(6, 0x00000005#32)]) 0x00532293).readReg 5 = 0x00000000#32 := by decide

/-- TV2.6 -/
theorem test_sltiu_sign_extends : (ran (st [(6, 0xFFFFF7FF#32)]) 0x80033293).readReg 5 = 0x00000001#32 := by decide

/-- TV2.6 -/
theorem test_xori : (ran (st [(6, 0xFFFFFFFF#32)]) 0x7FF34293).readReg 5 = 0xFFFFF800#32 := by decide

/-- TV2.6 -/
theorem test_ori : (ran (st [(6, 0x00000000#32)]) 0x80036293).readReg 5 = 0xFFFFF800#32 := by decide

/-- TV2.6 -/
theorem test_andi : (ran (st [(6, 0x12345678#32)]) 0xFF037293).readReg 5 = 0x12345670#32 := by decide

/-- TV2.6 -/
theorem test_slli : (ran (st [(6, 0x00000003#32)]) 0x01F31293).readReg 5 = 0x80000000#32 := by decide

/-- TV2.6 -/
theorem test_srli : (ran (st [(6, 0xFFFFFFFF#32)]) 0x01F35293).readReg 5 = 0x00000001#32 := by decide

/-- TV2.6 -/
theorem test_srai : (ran (st [(6, 0x80000000#32)]) 0x41F35293).readReg 5 = 0xFFFFFFFF#32 := by decide

/-- TV2.6 -/
theorem test_srai_by_zero : (ran (st [(6, 0x80000000#32)]) 0x40035293).readReg 5 = 0x80000000#32 := by decide

/-- TV2.7 -/
theorem test_add :
    (ran (st [(6, 0x7FFFFFFF#32), (7, 0x00000001#32)]) 0x007302B3).readReg 5 = 0x80000000#32 := by decide

/-- TV2.7 -/
theorem test_sub :
    (ran (st [(6, 0x00000000#32), (7, 0x00000001#32)]) 0x407302B3).readReg 5 = 0xFFFFFFFF#32 := by decide

/-- TV1.6 -/
theorem test_sll_by_33 :
    (ran (st [(6, 0x00000001#32), (7, 0x00000021#32)]) 0x007312B3).readReg 5 = 0x00000002#32 := by decide

/-- TV2.7 -/
theorem test_slt :
    (ran (st [(6, 0x80000000#32), (7, 0x00000001#32)]) 0x007322B3).readReg 5 = 0x00000001#32 := by decide

/-- TV2.7 -/
theorem test_sltu :
    (ran (st [(6, 0x80000000#32), (7, 0x00000001#32)]) 0x007332B3).readReg 5 = 0x00000000#32 := by decide

/-- TV2.7 -/
theorem test_xor :
    (ran (st [(6, 0xFF00FF00#32), (7, 0x0FF00FF0#32)]) 0x007342B3).readReg 5 = 0xF0F0F0F0#32 := by decide

/-- TV1.6 -/
theorem test_srl_masks :
    (ran (st [(6, 0x80000000#32), (7, 0xFFFFFFE1#32)]) 0x007352B3).readReg 5 = 0x40000000#32 := by decide

/-- TV1.6 -/
theorem test_sra_by_33 :
    (ran (st [(6, 0x80000000#32), (7, 0x00000021#32)]) 0x407352B3).readReg 5 = 0xC0000000#32 := by decide

/-- TV2.7 -/
theorem test_or :
    (ran (st [(6, 0x000000F0#32), (7, 0x0000000F#32)]) 0x007362B3).readReg 5 = 0x000000FF#32 := by decide

/-- TV2.7 -/
theorem test_and :
    (ran (st [(6, 0x0000F0F0#32), (7, 0x0000FF00#32)]) 0x007372B3).readReg 5 = 0x0000F000#32 := by decide

/-- TV2.7: rd = rs1 = rs2 -/
theorem test_add_same_register : (ran (st [(5, 0x40000000#32)]) 0x005282B3).readReg 5 = 0x80000000#32 := by decide

/-- TV2.8: FENCE with rd = 5 and rs1 = 11 writes nothing. -/
theorem test_fence :
    ran (st [(5, 7#32)]) 0x0FF5828F = ((st [(5, 7#32)]).withFetchWord 32 0x0FF5828F).setPc 0x80000004#32 := by decide

/-- TV1.9 -/
theorem test_ecall_pass :
    ran (st [(3, 1#32)]) 0x00000073 = ((st [(3, 1#32)]).withFetchWord 32 0x00000073).halt .pass := by decide

/-- TV1.9, and the alternative convention -/
theorem test_ecall_fail : (ran (st [(3, 7#32)]) 0x00000073).run = .halted (.fail 7#32) ∧
      (ran { st [(3, 7#32)] with conv := alternativeConvention } 0x00000073).run = .halted .pass := by decide


/-! ## The cycle, errors, loader -/

/-- TV2.9: fetch at 0x80FF_FFFE straddles the top; pc stays. -/
theorem test_fetch_out_of_bounds :
    step (st [] 0x80FFFFFE#32) = .next ((st [] 0x80FFFFFE#32).raise .outOfBounds) := rfl

/-- TV2.9: the all-zero word. -/
theorem test_unknown_opcode : step (st []) = .next ((st []).raise .unknownOpcode) := rfl

/-- TV2.9: the function fields are checked before the data address. -/
theorem test_illegal_before_bounds :
    (ran (st [(1, 0#32)]) 0x0000B183).run = .halted (.error .illegalInstruction) := by decide

/-- TV2.9: a cycle in HALTED. -/
theorem test_halted_stays : step ((st []).halt .pass) = .next ((st []).halt .pass) := rfl

/-- TV2.10: the later segment wins. -/
theorem test_loader_overlap :
    (launch Params.default [(0x80000000#32, [0xAA#8, 0xBB#8]), (0x80000001#32, [0xCC#8])]).mem =
      [(0x80000000, 0xAA#8), (0x80000001, 0xCC#8)] := by decide

/-- TV2.10: a segment past the top ends the run with no byte written. -/
theorem test_loader_out_of_bounds :
    launch Params.default [(0x80FFFFFF#32, [1#8, 2#8])] = State.reset.raise .outOfBounds := by decide

/-- TV1.7: two steps of the ADDI scenario. -/
theorem test_addi_scenario :
    (runLimited 2 (launch Params.default
        [(0x80000000#32, [0x93#8, 0x00#8, 0x50#8, 0x00#8, 0x93#8, 0x80#8, 0x30#8, 0x00#8])])).readReg 1 = 8#32 := by decide

/-- withFetchWord places the word where the next step fetches it. -/
theorem test_with_fetch_word : fetchInstr (State.reset.withFetchWord 32 0x00500093) = .ok (.addi 1 0 5) := by decide


/-! ## The hypotheses of the statements can be met -/

/-- JalrResult, its last clause. -/
theorem witness_jalr_illegal : opcode 0x00001067#32 = 0x67#7 ∧ funct3 0x00001067#32 ≠ 0b000#3 := by decide

/-- LoadResults: the highest address in bounds for each width, and the lowest. -/
theorem witness_load_in_bounds : inBounds ((st [(1, 0x80FFFFFF#32)]).readReg 1 + (0#12).signExtend 32) 1 = true ∧
      inBounds ((st [(1, 0x80FFFFFF#32)]).readReg 1 + (-1#12).signExtend 32) 2 = true ∧
      inBounds ((st [(1, 0x80FFFFFF#32)]).readReg 1 + (-3#12).signExtend 32) 4 = true ∧
      inBounds ((st [(1, 0x80000000#32)]).readReg 1 + (0#12).signExtend 32) 4 = true := by decide

/-- LoadResults: the first address out of bounds for each width, and the last below. -/
theorem witness_load_out_of_bounds : inBounds ((st [(1, 0x80FFFFFF#32)]).readReg 1 + (1#12).signExtend 32) 1 = false ∧
      inBounds ((st [(1, 0x80FFFFFF#32)]).readReg 1 + (0#12).signExtend 32) 2 = false ∧
      inBounds ((st [(1, 0x80FFFFFF#32)]).readReg 1 + (-2#12).signExtend 32) 4 = false ∧
      inBounds ((st [(1, 0x80000000#32)]).readReg 1 + (-1#12).signExtend 32) 1 = false := by decide

/-- StoreResults, in bounds: each width at its highest address. -/
theorem witness_store_in_bounds : MachineInv (st [(1, 0x80FFFFFF#32)]) ∧
      inBounds (effectiveAddress (st [(1, 0x80FFFFFF#32)]) 1 0#12) 1 = true ∧
      inBounds (effectiveAddress (st [(1, 0x80FFFFFF#32)]) 1 (-1#12)) 2 = true ∧
      inBounds (effectiveAddress (st [(1, 0x80FFFFFF#32)]) 1 (-3#12)) 4 = true := ⟨rfl, by decide⟩

/-- StoreResults, out of bounds. -/
theorem witness_store_out_of_bounds : MachineInv (st [(1, 0x80FFFFFF#32)]) ∧
      inBounds (effectiveAddress (st [(1, 0x80FFFFFF#32)]) 1 1#12) 1 = false ∧
      inBounds (effectiveAddress (st [(1, 0x80FFFFFF#32)]) 1 0#12) 2 = false ∧
      inBounds (effectiveAddress (st [(1, 0x80FFFFFF#32)]) 1 (-2#12)) 4 = false := ⟨rfl, by decide⟩

/-- ImmediateShiftResults, its illegal words. -/
theorem witness_shift_illegal :
    (opcode 0x40001013#32 = 0x13#7 ∧ funct3 0x40001013#32 = 0b001#3 ∧ funct7 0x40001013#32 ≠ 0b0000000#7) ∧
      (opcode 0x02005013#32 = 0x13#7 ∧ funct3 0x02005013#32 = 0b101#3 ∧ funct7 0x02005013#32 ≠ 0b0000000#7 ∧
        funct7 0x02005013#32 ≠ 0b0100000#7) := by decide

/-- FenceOnlyAdvances, both word clauses. -/
theorem witness_fence_words : (opcode 0x8330000F#32 = 0x0F#7 ∧ funct3 0x8330000F#32 = 0b000#3) ∧
      (opcode 0x0000100F#32 = 0x0F#7 ∧ funct3 0x0000100F#32 ≠ 0b000#3) := by decide

/-- EcallHalts, both clauses. -/
theorem witness_ecall :
    (st [(1, 0x80000100#32), (2, 7#32), (3, 1#32)]).readReg (st [(1, 0x80000100#32), (2, 7#32), (3, 1#32)]).conv.statusReg = (st [(1, 0x80000100#32), (2, 7#32), (3, 1#32)]).conv.passValue ∧
      State.reset.readReg State.reset.conv.statusReg ≠ State.reset.conv.passValue := by decide

/-- DecodeOfEncode, DecodeOfEncodedBytes: offsets at the ends of their ranges. -/
theorem witness_decode_of_encode :
    (Instr.jal 31 (-1048576)).wf = true ∧ (Instr.bgeu 31 31 4094).wf = true ∧ ([0x73#8, 0#8, 0#8] : List Byte).length < 4 := by decide

/-- EncodeOfDecode, OperandsComeFromTheWord: a store, so that class, both sources, access and immediate are met; a shift; and
a FENCE whose fields are not 0. -/
theorem witness_decoded_word :
    decodeWord 0x7E209FA3#32 = .ok (.sh 1 2 2047) ∧ (Instr.sh 1 2 2047).access = some (1, 2047, 2) ∧
      immediateOf (.sh 1 2 2047) = some 2047#32 ∧ decodeWord 0x40435293#32 = .ok (.srai 5 6 4) ∧
      (Instr.srai 5 6 4).dest = some 5 ∧ sourceOne (.sh 1 2 2047) = some 1 ∧ sourceTwo (.sh 1 2 2047) = some 2 ∧
      decodeWord 0xFFFF8F8F#32 = .ok (.fence 15 15 15 31 31) := by decide

/-- SystemWordsOnlyEcall, its second clause (EBREAK). -/
theorem witness_system_word : opcode 0x00100073#32 = 0x73#7 ∧ 0x00100073#32 ≠ 0x00000073#32 := by decide

/-- HintsOnlyAdvance: one of each class. -/
theorem witness_hints : [Instr.lui 0 1, .auipc 0 1, .addi 0 6 1, .add 0 6 7].all
      (fun i => i.opClass ∈ [OpClass.lui, .auipc, .imm, .op] ∧ i.dest = some 0#5) = true := by decide

/-- StepRunsTheDecodedInstruction. -/
theorem witness_step_runs :
    (State.reset.withFetchWord 32 0x00500093).run = .running ∧ inBounds (State.reset.withFetchWord 32 0x00500093).pc 4 = true ∧
      decodeWord (wordAt (State.reset.withFetchWord 32 0x00500093) (State.reset.withFetchWord 32 0x00500093).pc) = .ok (.addi 1 0 5) := by decide

/-- HaltedIsFinal. -/
theorem witness_halted : (State.reset.halt (.fail 7#32)).run = .halted (.fail 7#32) := rfl

/-- ErrorKeepsTheState: a fetch error, and a store that is out of bounds (reset has x1 = 0). -/
theorem witness_error :
    (st [] 0x7FFFFFFC#32).run = .running ∧ step (st [] 0x7FFFFFFC#32) = .next ((st [] 0x7FFFFFFC#32).raise .outOfBounds) ∧
      step (State.reset.withFetchWord 32 0x0020A023) =
        .next ((State.reset.withFetchWord 32 0x0020A023).raise .outOfBounds) := ⟨rfl, rfl, rfl⟩

/-- ErrorsExactlyInOrder: RUNNING, and each of the four errors of FirstError. -/
theorem witness_first_errors : FirstError (st [] 0x80FFFFFD#32) .outOfBounds ∧ FirstError (st []) .unknownOpcode ∧
      FirstError (State.reset.withFetchWord 32 0x0000B183) .illegalInstruction ∧
      FirstError (State.reset.withFetchWord 32 0x0000A003) .outOfBounds := by
  refine ⟨.inl ?_, .inr (.inl ?_), .inr (.inr (.inl ?_)), .inr (.inr (.inr ?_))⟩
  · decide
  · decide
  · exact ⟨by decide, by decide, .inr (.inr (.inl (by decide))), rfl⟩
  · exact ⟨by decide, by decide, by unfold IllegalWord; decide, ⟨.inl (by decide), by decide⟩, rfl⟩

/-- OnlyEcallPassesOrFails. -/
theorem witness_ecall_halts :
    (State.withFetchWord (st [(3, 1#32)]) 32 0x00000073).run = .running ∧ step (State.withFetchWord (st [(3, 1#32)]) 32 0x00000073) = .next ((State.withFetchWord (st [(3, 1#32)]) 32 0x00000073).halt .pass) ∧
      ((State.withFetchWord (st [(3, 1#32)]) 32 0x00000073).halt .pass).run = .halted .pass ∧ ∀ k, RunOutcome.pass ≠ .error k := ⟨rfl, rfl, rfl, fun _ h => nomatch h⟩

/-- OnlyTheDestinationIsWritten: another register than rd, and a branch, which names none. -/
theorem witness_other_register : exec (.addi 1 0 5) (st []) = .next (((st []).writeReg 1 5#32).setPc 0x80000004#32) ∧
      (Instr.addi 1 0 5).dest ≠ some 2 ∧ (Instr.beq 1 2 8).dest ≠ some 1 := ⟨rfl, by decide, by decide⟩

/-- RegisterZeroIsHardwired: an instruction that names x0 and completes, and a load that names it out of bounds. -/
theorem witness_x0 :
    (Instr.addi 0 6 1).dest = some 0#5 ∧ exec (.addi 0 6 1) (st []) = .next ((st []).setPc 0x80000004#32) ∧
      (Instr.lw 0 1 0).dest = some 0#5 ∧ (Instr.lw 0 1 0).access = some (1, 0, 4) ∧
      inBounds ((st []).readReg 1 + (0#12).signExtend 32) 4 = false := ⟨rfl, rfl, rfl, rfl, by decide⟩

/-- OnlyStoresChangeMemory: an instruction of another class, and a store with an address outside its bytes. -/
theorem witness_stores_only :
    MachineInv (st [(1, 0x80000100#32), (2, 7#32), (3, 1#32)]) ∧ exec (.addi 1 0 5) (st [(1, 0x80000100#32), (2, 7#32), (3, 1#32)]) = .next (((st [(1, 0x80000100#32), (2, 7#32), (3, 1#32)]).writeReg 1 5#32).setPc 0x80000004#32) ∧
      (Instr.addi 1 0 5).opClass ≠ .store ∧
      (∃ t, exec (.sb 1 2 0) (st [(1, 0x80000100#32), (2, 7#32), (3, 1#32)]) = .next t) ∧ (Instr.sb 1 2 0).access = some (1, 0, 1) ∧
      (effectiveAddress (st [(1, 0x80000100#32), (2, 7#32), (3, 1#32)]) 1 0).toNat + 1 ≤ 0x80000101 := ⟨rfl, rfl, by decide, ⟨_, rfl⟩, rfl, by decide⟩

/-- NextPcRule: a cycle that goes on, and one that ends the run. -/
theorem witness_next_pc :
    (st []).run = .running ∧ exec (.addi 1 0 5) (st []) = .next (((st []).writeReg 1 5#32).setPc 0x80000004#32) ∧
      (((st []).writeReg 1 5#32).setPc 0x80000004#32).run = .running ∧
      (Instr.addi 1 0 5).opClass ∉ [OpClass.branch, .jal, .jalr] ∧
      exec .ecall (st []) = .next ((st []).halt (.fail 0#32)) ∧ ((st []).halt (.fail 0#32)).run ≠ .running := ⟨rfl, rfl, rfl, by decide, rfl, by decide⟩

/-- ConventionMattersToEcallOnly. -/
theorem witness_not_ecall :
    (∃ t, step State.reset = .next t) ∧ Instr.addi 1 0 5 ≠ .ecall ∧ ∃ t, exec (.addi 1 0 5) State.reset = .next t := ⟨⟨_, rfl⟩, by decide, ⟨_, rfl⟩⟩

/-- StepReadsOnlyFetchAndLoad: a load, and two memories that differ at 0x8000_0200 alone. -/
theorem witness_two_memories :
    MachineInv (State.withFetchWord (st [(1, 0x80000100#32)]) 32 0x0000A183) ∧ Memory.wf ((State.withFetchWord (st [(1, 0x80000100#32)]) 32 0x0000A183).mem.writeByte 0x80000200 9#8) = true ∧
      (∀ k, k < 4 → ((State.withFetchWord (st [(1, 0x80000100#32)]) 32 0x0000A183).mem.writeByte 0x80000200 9#8).readByte ((State.withFetchWord (st [(1, 0x80000100#32)]) 32 0x0000A183).pc.toNat + k) = (State.withFetchWord (st [(1, 0x80000100#32)]) 32 0x0000A183).mem.readByte ((State.withFetchWord (st [(1, 0x80000100#32)]) 32 0x0000A183).pc.toNat + k)) ∧
      (∀ i rs1 imm n, decodeWord (wordAt (State.withFetchWord (st [(1, 0x80000100#32)]) 32 0x0000A183) (State.withFetchWord (st [(1, 0x80000100#32)]) 32 0x0000A183).pc) = .ok i → i.opClass = .load → i.access = some (rs1, imm, n) →
        ∀ k, k < n → ((State.withFetchWord (st [(1, 0x80000100#32)]) 32 0x0000A183).mem.writeByte 0x80000200 9#8).readByte (((State.withFetchWord (st [(1, 0x80000100#32)]) 32 0x0000A183).readReg rs1 + imm.signExtend 32).toNat + k) =
          (State.withFetchWord (st [(1, 0x80000100#32)]) 32 0x0000A183).mem.readByte (((State.withFetchWord (st [(1, 0x80000100#32)]) 32 0x0000A183).readReg rs1 + imm.signExtend 32).toNat + k)) ∧
      (∃ t, step (State.withFetchWord (st [(1, 0x80000100#32)]) 32 0x0000A183) = .next t) ∧ ∃ t, step { (State.withFetchWord (st [(1, 0x80000100#32)]) 32 0x0000A183) with mem := (State.withFetchWord (st [(1, 0x80000100#32)]) 32 0x0000A183).mem.writeByte 0x80000200 9#8 } = .next t := by
  refine ⟨rfl, rfl, by decide, ?_, ⟨_, rfl⟩, ⟨_, rfl⟩⟩
  intro i rs1 imm n hd _ ha
  cases (show Except.ok (Instr.lw 3 1 0) = _ from hd)
  cases ha
  decide

/-- WritesAreLittleEndian, MixedWidthReads: the last word of the window, and one byte further. -/
theorem witness_write : Memory.wf [] = true ∧ inBounds 0x80FFFFFC#32 AccessWidth.word.bytes = true ∧
      inBounds 0x80FFFFFD#32 AccessWidth.word.bytes = false ∧
      ∃ m, memWrite [] 0x80FFFFFC#32 .word 0xDEADBEEF#32 = .ok m := ⟨rfl, by decide, by decide, ⟨_, rfl⟩⟩

/-- StoreThenLoad: each width at its highest address. -/
theorem witness_store_then_load :
    MachineInv (st [(1, 0x80FFFFFF#32)]) ∧
      (inBounds ((st [(1, 0x80FFFFFF#32)]).readReg 1 + (-3#12).signExtend 32) 4 = true ∧
        ∃ t, exec (.sw 1 2 (-3)) (st [(1, 0x80FFFFFF#32)]) = .next t) ∧
      (inBounds ((st [(1, 0x80FFFFFF#32)]).readReg 1 + (-1#12).signExtend 32) 2 = true ∧
        ∃ t, exec (.sh 1 2 (-1)) (st [(1, 0x80FFFFFF#32)]) = .next t) ∧
      inBounds ((st [(1, 0x80FFFFFF#32)]).readReg 1 + (0#12).signExtend 32) 1 = true ∧
        ∃ t, exec (.sb 1 2 0) (st [(1, 0x80FFFFFF#32)]) = .next t := ⟨rfl, ⟨by decide, ⟨_, rfl⟩⟩, ⟨by decide, ⟨_, rfl⟩⟩, by decide, ⟨_, rfl⟩⟩

/-- StoredInstructionIsFetched. -/
theorem witness_stored_instruction :
    MachineInv (st [(1, 0x80000100#32), (2, 0x00500093#32)]) ∧ (st [(1, 0x80000100#32), (2, 0x00500093#32)]).run = .running ∧ (Instr.addi 1 0 5).wf = true ∧
      inBounds ((st [(1, 0x80000100#32), (2, 0x00500093#32)]).readReg 1 + (0#12).signExtend 32) 4 = true ∧
      (st [(1, 0x80000100#32), (2, 0x00500093#32)]).readReg 2 = encode (.addi 1 0 5) ∧ ∃ t, exec (.sw 1 2 0) (st [(1, 0x80000100#32), (2, 0x00500093#32)]) = .next t := ⟨rfl, rfl, rfl, by decide, by decide, ⟨_, rfl⟩⟩

/-- CanonicalMemoriesAreEqual: two memories reached in different orders of writing. -/
theorem witness_equal_memories :
    Memory.wf (Memory.writeByte (Memory.writeByte [] 0x80000001 2#8) 0x80000000 1#8) = true ∧
      Memory.wf (Memory.writeByte (Memory.writeByte [] 0x80000000 1#8) 0x80000001 2#8) = true ∧
      ∀ a, (Memory.writeByte (Memory.writeByte [] 0x80000001 2#8) 0x80000000 1#8).readByte a =
        (Memory.writeByte (Memory.writeByte [] 0x80000000 1#8) 0x80000001 2#8).readByte a := ⟨rfl, rfl, fun _ => rfl⟩

/-- ResetState, ResetMeetsInvariant, ReachableStatesMeetInvariant. -/
theorem witness_reset :
    ParamsOk Params.default ∧ Reachable (launch Params.default [(0x80000000#32, [0x73#8])]) ∧ 30 < 31 := ⟨rfl, .launched _ _ rfl, by decide⟩

/-- StepKeepsInvariant: a state that stores. -/
theorem witness_step_keeps :
    MachineInv (State.withFetchWord (st [(1, 0x80000100#32), (2, 7#32), (3, 1#32)]) 32 0x0020A023) ∧ ∃ t, step (State.withFetchWord (st [(1, 0x80000100#32), (2, 7#32), (3, 1#32)]) 32 0x0020A023) = .next t := ⟨rfl, ⟨_, rfl⟩⟩

/-- LoadSegmentExact: a segment that ends with the window, and ones that miss it at either end. -/
theorem witness_segment :
    Memory.wf [] = true ∧ (0x80000000 ≤ (0x80FFFFFE#32).toNat ∧ (0x80FFFFFE#32).toNat + [1#8, 2#8].length ≤ 0x81000000) ∧
      (0x7FFFFFFF#32).toNat < 0x80000000 ∧ 0x81000000 < (0x80FFFFFF#32).toNat + [1#8, 2#8].length := ⟨rfl, by decide, by decide, by decide⟩

/-- LoaderStopsAtFirstFailure. -/
theorem witness_loader_failure :
    State.reset.run = .running ∧ (∀ seg ∈ [((0x80000000#32, [0x73#8]) : Segment)], inBounds seg.1 seg.2.length = true) ∧
      inBounds 0x80FFFFFF#32 [1#8, 2#8].length = false := ⟨rfl, by decide, by decide⟩

/-- LimitedRunsAgree, its second clause: one step of the all-zero word. -/
theorem witness_ended : (runLimited 1 State.reset).run ≠ .running := by decide

end Sys2Proof.Tests
end

section
/-! The ECALL convention: no step writes it, and only ECALL reads it (spec/00_scope.md R9, spec/47_misc_system.md R231). -/

namespace Sys2Proof.Machine

variable {s t : State}

/-- No shape of a next state touches the convention. -/
theorem Shape.conv_eq (h : Shape s t) : t.conv = s.conv := by
  cases h with
  | wrote | went | stored | stopped => rfl

theorem step_conv_eq (h : step s = .next t) : t.conv = s.conv := by
  obtain rfl | hs := step_shape h
  · rfl
  · exact hs.conv_eq

/-- A load answers the same under another convention, whether its access is in bounds or not (R170). -/
theorem load_of_conv {n : AccessWidth} {ext : Word → Word} {rd : RegIdx} {ea : Word} (c : Config.Convention)
    (h : load s n ext rd ea = .next t) :
    load { s with conv := c } n ext rd ea = .next { t with conv := c } := by
  cases hm : memRead s.mem ea n <;> simp only [load, hm] at h ⊢ <;> cases h <;> rfl

/-- A store answers the same under another convention, whether its access is in bounds or not (R176). -/
theorem store_of_conv {n : AccessWidth} {ea v : Word} (c : Config.Convention) (h : store s n ea v = .next t) :
    store { s with conv := c } n ea v = .next { t with conv := c } := by
  cases hm : memWrite s.mem ea n v <;> simp only [store, hm] at h ⊢ <;> cases h <;> rfl

/-- Nothing else in the next state depends on the convention: loads and stores by their own lemmas, every other meaning but
ECALL's because it computes its one next state without reading the convention. -/
theorem exec_of_conv {i : Instr} (c : Config.Convention) (hi : i ≠ .ecall) (h : exec i s = .next t) :
    exec i { s with conv := c } = .next { t with conv := c } := by
  cases i
  case ecall => exact absurd rfl hi
  case lb | lh | lw | lbu | lhu => exact load_of_conv c h
  case sb | sh | sw => exact store_of_conv c h
  all_goals cases h; rfl

end Sys2Proof.Machine

namespace Sys2Proof.Proofs

open Sys2Proof.Machine

/-- Settles O35: the shapes of a step keep the convention, and no meaning but ECALL's reads it. -/
theorem conventionMattersToEcallOnly : Obligations.ConventionMattersToEcallOnly :=
  ⟨fun _ _ h => step_conv_eq h, fun _ _ _ c hi h => exec_of_conv c hi h⟩

end Sys2Proof.Proofs
end

section
/-! The invariant: every shape of a next state and every load of segments keeps memory canonical (spec/10_state.md R31,
R33; spec/20_memory.md R43, R47, R53). -/

namespace Sys2Proof.Machine

variable {s t : State}

/-- Of the shapes only the store touches memory, and its bytes lie in the window (R41, R43, R47). -/
theorem Shape.keeps_wf (h : Shape s t) (hm : s.mem.wf = true) : t.mem.wf = true := by
  cases h with
  | wrote | went | stopped => exact hm
  | stored n ea v hb =>
    obtain ⟨hlo, hhi⟩ := inBounds_iff.mp hb
    exact Memory.wf_writeBytes hlo (by simpa using hhi) hm

theorem step_keeps_wf (hm : s.mem.wf = true) (h : step s = .next t) : t.mem.wf = true := by
  obtain rfl | hs := step_shape h
  · exact hm
  · exact hs.keeps_wf hm

/-- A segment that fits keeps the form, and one that does not leaves memory as the earlier ones made it (R53, R273). -/
theorem loadSegments_keeps_wf (segs : List Segment) (hm : s.mem.wf = true) : (loadSegments segs s).mem.wf = true := by
  induction segs generalizing s with
  | nil => exact hm
  | cons seg rest ih =>
    cases hl : loadSegment s.mem seg with
    | ok m => simpa only [loadSegments, hl] using ih (s := s.setMem m) (loadSegment_wf hm hl)
    | error k => simpa only [loadSegments, hl, State.raise_mem] using hm

end Sys2Proof.Machine

namespace Sys2Proof.Safety

open Sys2Proof.Machine

theorem Reachable.machineInv {s : State} (h : Reachable s) : MachineInv s := by
  induction h with
  | launched p segs hp => exact loadSegments_keeps_wf segs hp
  | stepped s t _ hstep ih => exact step_keeps_wf ih hstep

end Sys2Proof.Safety

namespace Sys2Proof.Proofs

open Sys2Proof.Machine

/-- Settles O46: a step leaves the state alone or gives it one of the shapes, which all keep the canonical form. -/
theorem stepKeepsInvariant : Obligations.StepKeepsInvariant :=
  fun _ _ hm h => step_keeps_wf hm h

end Sys2Proof.Proofs
end

section
/-! What a canonical memory reads as: the bytes it lists and nothing else, so it is determined by what it reads as
(spec/10_state.md R31, R33). -/

namespace Sys2Proof.Machine

theorem Memory.readByte_cons_same (k : Nat) (u : Byte) (rest : Memory) : Memory.readByte ((k, u) :: rest) k = u := by
  simp [Memory.readByte]

theorem Memory.readByte_cons_of_ne {k a : Nat} (u : Byte) (rest : Memory) (h : k ≠ a) :
    Memory.readByte ((k, u) :: rest) a = rest.readByte a := by
  simp [Memory.readByte, h]

/-- Above the window a canonical memory lists nothing. -/
theorem Memory.readByte_above {a : Nat} (h : Config.base + Config.capacity ≤ a) :
    ∀ {m : Memory} {lo : Nat}, m.wfFrom lo = true → m.readByte a = unlistedByte
  | [], _, _ => rfl
  | (k, u) :: rest, _, hm => by
    obtain ⟨_, hk, _, hrest⟩ := Memory.wfFrom_cons.mp hm
    rw [Memory.readByte_cons_of_ne u rest (by omega)]
    exact Memory.readByte_above h hrest

/-- Outside the window a canonical memory lists nothing (R31). -/
theorem Memory.readByte_outside {m : Memory} {a : Nat} (hm : m.wf = true)
    (ha : a < Config.base ∨ Config.base + Config.capacity ≤ a) : m.readByte a = unlistedByte := by
  obtain hlo | hhi := ha
  · exact Memory.readByte_below hlo hm
  · exact Memory.readByte_above hhi hm

/-- A canonical memory that reads like one whose first entry is at `k` lists something at or below `k`: were all its
entries above, it would read at `k` as an unlisted byte, which no entry equals. -/
theorem Memory.not_wfFrom_succ_of_reads_cons {lo k : Nat} {u : Byte} {rest m : Memory}
    (hm : Memory.wfFrom lo ((k, u) :: rest) = true) (h : ∀ a, Memory.readByte ((k, u) :: rest) a = m.readByte a) :
    ¬ m.wfFrom (k + 1) = true := by
  obtain ⟨_, _, hu, _⟩ := Memory.wfFrom_cons.mp hm
  intro hw
  have hk := h k
  rw [Memory.readByte_cons_same, Memory.readByte_below (Nat.lt_succ_self k) hw] at hk
  exact hu hk

/-- Two canonical memories that read alike and start at the same address start with the same entry, and their tails, which
list nothing up to that address, read alike. -/
theorem Memory.tails_read_alike {k : Nat} {u u' : Byte} {rest rest' : Memory} (hr : rest.wfFrom (k + 1) = true)
    (hr' : rest'.wfFrom (k + 1) = true)
    (h : ∀ a, Memory.readByte ((k, u) :: rest) a = Memory.readByte ((k, u') :: rest') a) :
    u = u' ∧ ∀ a, rest.readByte a = rest'.readByte a := by
  refine ⟨by simpa only [Memory.readByte_cons_same] using h k, fun a => ?_⟩
  by_cases ha : k = a
  · have hlt : a < k + 1 := by omega
    rw [Memory.readByte_below hlt hr, Memory.readByte_below hlt hr']
  · simpa only [Memory.readByte_cons_of_ne _ _ ha] using h a

/-- Canonical memories are extensional. -/
theorem Memory.eq_of_reads_alike : ∀ {m m' : Memory} {lo lo' : Nat}, m.wfFrom lo = true → m'.wfFrom lo' = true →
    (∀ a, m.readByte a = m'.readByte a) → m = m'
  | [], [], _, _, _, _, _ => rfl
  | [], _ :: _, _, _, _, hm', h => absurd rfl (Memory.not_wfFrom_succ_of_reads_cons hm' fun a => (h a).symm)
  | _ :: _, [], _, _, hm, _, h => absurd rfl (Memory.not_wfFrom_succ_of_reads_cons hm h)
  | (k, u) :: rest, (k', u') :: rest', _, _, hm, hm', h => by
    obtain ⟨_, hk, hu, hr⟩ := Memory.wfFrom_cons.mp hm
    obtain ⟨_, hk', hu', hr'⟩ := Memory.wfFrom_cons.mp hm'
    have hle : k' ≤ k := Nat.le_of_not_lt fun hlt =>
      Memory.not_wfFrom_succ_of_reads_cons hm h (Memory.wfFrom_cons.mpr ⟨hlt, hk', hu', hr'⟩)
    have hge : k ≤ k' := Nat.le_of_not_lt fun hlt =>
      Memory.not_wfFrom_succ_of_reads_cons hm' (fun a => (h a).symm) (Memory.wfFrom_cons.mpr ⟨hlt, hk, hu, hr⟩)
    obtain rfl : k = k' := Nat.le_antisymm hge hle
    obtain ⟨rfl, htails⟩ := Memory.tails_read_alike hr hr' h
    rw [Memory.eq_of_reads_alike hr hr' htails]

end Sys2Proof.Machine

namespace Sys2Proof.Proofs

open Sys2Proof.Machine

/-- Settles O43, by induction on the two lists: their first entries are at the same address, since the lower of two
would be listed by one memory alone. -/
theorem canonicalMemoriesAreEqual : Obligations.CanonicalMemoriesAreEqual :=
  fun _ _ hm hm' h => Memory.eq_of_reads_alike hm hm' h

/-- Settles O47: the invariant holds of every reachable state, and a canonical memory lists nothing outside the window. -/
theorem reachableStatesMeetInvariant : Obligations.ReachableStatesMeetInvariant :=
  fun _ h => ⟨h.machineInv, fun _ ha => Memory.readByte_outside h.machineInv ha⟩

end Sys2Proof.Proofs
end

section
/-! The register file: x0 (spec/10_state.md R21, R22), the register frame of every instruction (spec/40_datapath.md R114),
and what an access out of bounds does (spec/44_loads_stores.md R170). -/

namespace Sys2Proof.Machine

variable {s t : State}

@[simp] theorem State.readReg_zero (s : State) : s.readReg 0#5 = 0#32 := by simp [State.readReg]

@[simp] theorem State.writeReg_zero (s : State) (v : Word) : s.writeReg 0#5 v = s := by
  simp [State.writeReg, writeRegs]

/-- A write to another register, x0 or not, leaves `q` to be read as before. -/
theorem State.readReg_writeReg_of_ne {q rd : RegIdx} (v : Word) (h : rd ≠ q) :
    (s.writeReg rd v).readReg q = s.readReg q := by
  rw [State.readReg_writeReg, if_neg fun hq => h hq.1.symm]

/-- A load writes no register but its destination (R170). -/
theorem load_readReg_of_ne {n : AccessWidth} {ext : Word → Word} {rd q : RegIdx} {ea : Word} (hq : rd ≠ q)
    (h : load s n ext rd ea = .next t) : t.readReg q = s.readReg q := by
  obtain ⟨_, e⟩ | ⟨_, e⟩ := load_cases s n ext rd ea <;> rw [e] at h <;> cases h
  · rfl
  · exact State.readReg_writeReg_of_ne _ hq

/-- A store writes no register (R176). -/
theorem store_readReg {n : AccessWidth} {ea v : Word} (q : RegIdx) (h : store s n ea v = .next t) :
    t.readReg q = s.readReg q := by
  obtain ⟨_, e⟩ | ⟨_, e⟩ := store_cases s n ea v <;> rw [e] at h <;> cases h <;> rfl

/-- No instruction writes a register but its destination (R114). -/
theorem exec_readReg_of_ne_dest {i : Instr} {q : RegIdx} (hq : i.dest ≠ some q) (h : exec i s = .next t) :
    t.readReg q = s.readReg q := by
  have hne {rd : RegIdx} (hd : i.dest = some rd) : rd ≠ q := fun e => hq (e ▸ hd)
  cases i
  case lb | lh | lw | lbu | lhu => exact load_readReg_of_ne (hne rfl) h
  case sb | sh | sw => exact store_readReg q h
  case beq | bne | blt | bge | bltu | bgeu | fence | ecall => cases h; rfl
  all_goals cases h; exact State.readReg_writeReg_of_ne _ (hne rfl)

/-- A load out of bounds raises OutOfBounds whatever its destination is (R170, R21). -/
theorem load_out_of_bounds {n : AccessWidth} {ea : Word} (ext : Word → Word) (rd : RegIdx)
    (hb : inBounds ea n.bytes = false) : load s n ext rd ea = .next (s.raise .outOfBounds) := by
  obtain ⟨_, e⟩ | ⟨hb', _⟩ := load_cases s n ext rd ea
  · exact e
  · rw [hb] at hb'; cases hb'

/-- A load is the instruction that has both a destination and a data access; out of bounds it changes the run state
alone. -/
theorem exec_load_out_of_bounds {i : Instr} {rd rs1 : RegIdx} {imm : BitVec 12} {n : Nat} (hd : i.dest = some rd)
    (ha : i.access = some (rs1, imm, n)) (hb : inBounds (effectiveAddress s rs1 imm) n = false) :
    exec i s = .next (s.raise .outOfBounds) := by
  cases i
  case lb | lh | lw | lbu | lhu => cases ha; exact load_out_of_bounds _ _ hb
  case sb | sh | sw => cases hd
  all_goals cases ha

/-- Register number k + 1 is stored at index k. -/
theorem State.readReg_ofNat_succ (s : State) (k : Nat) (hk : k < 31) :
    s.readReg (BitVec.ofNat 5 (k + 1)) = s.regs[k] := by
  have hn : (BitVec.ofNat 5 (k + 1)).toNat = k + 1 := by simp; omega
  have h0 : BitVec.ofNat 5 (k + 1) ≠ 0#5 := fun e => by simp [e] at hn
  simp [State.readReg, h0, hn]

end Sys2Proof.Machine

namespace Sys2Proof.Proofs

open Sys2Proof.Machine Sys2Proof.Claims

/-- With x0 as its destination an instruction leaves x0 reading 0, and it writes no other register. -/
theorem exec_sameRegs_of_dest_zero {i : Instr} {s t : State} (hd : i.dest = some 0#5) (h : exec i s = .next t) :
    SameRegs s t := by
  intro q
  by_cases hq : q = 0#5
  · rw [hq, State.readReg_zero, State.readReg_zero]
  · exact exec_readReg_of_ne_dest (fun e => hq (Option.some.inj (e.symm.trans hd))) h

/-- Settles O32: the register file drops a write to x0, and a load checks its access before it writes back. -/
theorem registerZeroIsHardwired : Obligations.RegisterZeroIsHardwired :=
  ⟨fun s => ⟨s.readReg_zero, s.writeReg_zero⟩, fun _ _ _ hd h => exec_sameRegs_of_dest_zero hd h,
    fun _ _ _ _ _ hd ha hb => exec_load_out_of_bounds hd ha hb⟩

/-- Settles O44: INIT_X is read back index by index, every other clause is a field of the reset state. -/
theorem resetState : Obligations.ResetState :=
  ⟨fun p => ⟨rfl, rfl, (State.boot p).readReg_zero, (State.boot p).readReg_ofNat_succ, fun _ => rfl, rfl⟩, rfl, rfl⟩

/-- Settles O45: reset takes INIT_MEM as it is, and the default one lists nothing. -/
theorem resetMeetsInvariant : Obligations.ResetMeetsInvariant :=
  ⟨fun _ hp => hp, rfl⟩

end Sys2Proof.Proofs
end

section
/-! Checked accesses byte by byte: what a write leaves to be read, and the little-endian value of a read (spec/20_memory.md
R42 to R48). -/

namespace Sys2Proof.Machine

variable {m : Memory} {a : Word} {bs : List Byte}

/-- Byte `k` of a list written in bounds stands at the address plus `k` (R47). -/
theorem Memory.readByte_writeBytes_inside (hb : inBounds a bs.length = true) (hm : m.wf = true) {k : Nat}
    (hk : k < bs.length) : (m.writeBytes a.toNat bs).readByte (a.toNat + k) = bs[k] := by
  obtain ⟨hlo, hhi⟩ := inBounds_iff.mp hb
  rw [Memory.readByte_writeBytes hlo hhi hm, if_pos (by omega), Nat.add_sub_cancel_left, List.getD_eq_getElem _ _ hk]

/-- A write in bounds leaves every byte outside its own as it was (R47). -/
theorem Memory.readByte_writeBytes_outside (hb : inBounds a bs.length = true) (hm : m.wf = true) {b : Nat}
    (h : b < a.toNat ∨ a.toNat + bs.length ≤ b) : (m.writeBytes a.toNat bs).readByte b = m.readByte b := by
  obtain ⟨hlo, hhi⟩ := inBounds_iff.mp hb
  rw [Memory.readByte_writeBytes hlo hhi hm, if_neg (by omega)]

/-- Element `k` of the bytes read is the byte at the address plus `k`. -/
theorem Memory.readBytes_getD (m : Memory) {n k : Nat} (a : Nat) (hk : k < n) :
    (m.readBytes a n).getD k 0 = m.readByte (a + k) := by
  induction n generalizing a k with
  | zero => omega
  | succ n ih =>
    cases k with
    | zero => rfl
    | succ k =>
      have he : a + 1 + k = a + (k + 1) := by omega
      rw [Memory.readBytes, List.getD_cons_succ, ih _ (by omega), he]

/-- The bytes read depend on those addresses alone. -/
theorem Memory.readBytes_congr {m m' : Memory} {a n : Nat}
    (h : ∀ k, k < n → m'.readByte (a + k) = m.readByte (a + k)) : m'.readBytes a n = m.readBytes a n := by
  induction n generalizing a with
  | zero => rfl
  | succ n ih =>
    have htail : ∀ k, k < n → m'.readByte (a + 1 + k) = m.readByte (a + 1 + k) := fun k hk => by
      have he : a + 1 + k = a + (k + 1) := by omega
      rw [he]; exact h _ (by omega)
    rw [Memory.readBytes, Memory.readBytes, ih htail, show m'.readByte a = m.readByte a from h 0 (by omega)]

theorem memRead_byte (m : Memory) (a : Word) : memRead m a .byte =
    if inBounds a 1 then .ok ((m.readByte a.toNat).setWidth 32) else .error .outOfBounds := by
  rw [← wordOfBytes_one]; rfl

theorem memRead_half (m : Memory) (a : Word) : memRead m a .half =
    if inBounds a 2 then .ok ((m.readByte (a.toNat + 1) ++ m.readByte a.toNat).setWidth 32)
    else .error .outOfBounds := by
  rw [← wordOfBytes_two]; rfl

theorem memRead_word (m : Memory) (a : Word) : memRead m a .word =
    if inBounds a 4 then
      .ok (m.readByte (a.toNat + 3) ++ m.readByte (a.toNat + 2) ++ m.readByte (a.toNat + 1) ++ m.readByte a.toNat)
    else .error .outOfBounds := by
  rw [← wordOfBytes_four]; rfl

/-- A fetch is a data read of a word (R45, R46). -/
theorem fetchWord_eq_memRead (m : Memory) (a : Word) : fetchWord m a = memRead m a .word := rfl

theorem memRead_of_inBounds {n : AccessWidth} (hb : inBounds a n.bytes = true) :
    memRead m a n = .ok (wordOfBytes (m.readBytes a.toNat n.bytes)) := by simp [memRead, hb]

theorem memWrite_of_inBounds {n : AccessWidth} (v : Word) (hb : inBounds a n.bytes = true) :
    memWrite m a n v = .ok (m.writeBytes a.toNat (bytesOfWord n.bytes v)) := by simp [memWrite, hb]

theorem memWrite_of_outOfBounds {n : AccessWidth} (v : Word) (hb : inBounds a n.bytes = false) :
    memWrite m a n v = .error .outOfBounds := by simp [memWrite, hb]

/-- InBounds with the edges of the window as numbers (R42). -/
theorem inBounds_iff_window {a : Word} {w : Nat} :
    inBounds a w = true ↔ 0x80000000 ≤ a.toNat ∧ a.toNat + w ≤ 0x81000000 :=
  inBounds_iff

/-- An access inside one in bounds is in bounds, and its address does not wrap around (R48). -/
theorem inBounds_within {d w n : Nat} (hb : inBounds a n = true) (hd : d + w ≤ n) :
    (a + BitVec.ofNat 32 d).toNat = a.toNat + d ∧ inBounds (a + BitVec.ofNat 32 d) w = true := by
  obtain ⟨hlo, hhi⟩ := inBounds_iff_window.mp hb
  have ha : (a + BitVec.ofNat 32 d).toNat = a.toNat + d := by
    rw [BitVec.toNat_add, BitVec.toNat_ofNat]; omega
  exact ⟨ha, inBounds_iff_window.mpr (by omega)⟩

end Sys2Proof.Machine

namespace Sys2Proof.Claims

open Sys2Proof.Machine

variable {m m' : Memory} {a v : Word} {n : Nat}

/-- A write in bounds puts the low bytes of the value there and changes no other byte (R47). -/
theorem bytesWritten_writeBytes (hb : inBounds a n = true) (hm : m.wf = true) :
    BytesWritten m (m.writeBytes a.toNat (bytesOfWord n v)) a.toNat n v := by
  have hl : (bytesOfWord n v).length = n := bytesOfWord_length n v
  have hb' : inBounds a (bytesOfWord n v).length = true := hl.symm ▸ hb
  refine ⟨fun k hk => ?_, fun b h => Memory.readByte_writeBytes_outside hb' hm (hl.symm ▸ h)⟩
  have hk' : k < (bytesOfWord n v).length := hl.symm ▸ hk
  rw [Memory.readByte_writeBytes_inside hb' hm hk', ← List.getD_eq_getElem _ 0 hk', bytesOfWord_getD n k v hk]

/-- Where bytes of `v` have been written, a read of the bytes from byte `d` up answers these bits of `v`, zero-extended:
bit `i` of the read is bit `i mod 8` of byte `d + i / 8` (R46 to R48). -/
theorem BytesWritten.memRead {d : Nat} {w : AccessWidth} (h : BytesWritten m m' a.toNat n v)
    (hb : inBounds a n = true) (hd : d + w.bytes ≤ n) :
    memRead m' (a + BitVec.ofNat 32 d) w = .ok ((v.extractLsb' (8 * d) (8 * w.bytes)).setWidth 32) := by
  obtain ⟨hbytes, _⟩ := h
  obtain ⟨ha, hb'⟩ := inBounds_within hb hd
  rw [memRead_of_inBounds hb', ha]
  congr 1
  apply BitVec.eq_of_getLsbD_eq
  intro i hi
  rw [wordOfBytes_getLsbD _ i hi, BitVec.getLsbD_setWidth, BitVec.getLsbD_extractLsb']
  by_cases hk : i / 8 < w.bytes
  · have hbyte : m'.readByte (a.toNat + d + i / 8) = v.extractLsb' (8 * (d + i / 8)) 8 :=
      Nat.add_assoc .. ▸ hbytes _ (by omega)
    have hbit : 8 * (d + i / 8) + i % 8 = 8 * d + i := by omega
    have hlt : i < 8 * w.bytes := by omega
    rw [Memory.readBytes_getD m' _ hk, hbyte, BitVec.getLsbD_extractLsb', hbit]
    simp [hi, hlt, Nat.mod_lt]
  · have hge : ¬ i < 8 * w.bytes := by omega
    have hlen : (m'.readBytes (a.toNat + d) w.bytes).length ≤ i / 8 := by simpa using hk
    rw [List.getD_eq_default _ _ hlen]
    simp [hge]

end Sys2Proof.Claims

namespace Sys2Proof.Proofs

open Sys2Proof.Machine Sys2Proof.Claims

/-- Settles O37: the bounds check is stated over integers, and its edges are computed. -/
theorem boundsOfTheWindow : Obligations.BoundsOfTheWindow :=
  ⟨fun _ _ => inBounds_iff_window, by decide, by decide, by decide, by decide, by decide⟩

/-- Settles O38: a read in bounds is the little-endian value of its bytes, at each of the three widths. -/
theorem readsAreLittleEndian : Obligations.ReadsAreLittleEndian :=
  fun m a => ⟨memRead_byte m a, memRead_half m a, memRead_word m a, fetchWord_eq_memRead m a⟩

/-- Settles O39: a write is refused before its first byte, or leaves exactly its bytes. -/
theorem writesAreLittleEndian : Obligations.WritesAreLittleEndian :=
  fun _ _ v _ hm => ⟨fun hb => ⟨_, memWrite_of_inBounds v hb, bytesWritten_writeBytes hb hm⟩, memWrite_of_outOfBounds v⟩

/-- Settles O40: each of the five reads lies within the word written, so it answers the bits of `v` at its offset. -/
theorem mixedWidthReads : Obligations.MixedWidthReads := by
  intro m m' a v hm h
  obtain ⟨_, e⟩ | ⟨hb, e⟩ := memWrite_cases (m := m) (a := a) (v := v) (n := .word) <;> rw [e] at h <;> cases h
  have read {d : Nat} {w : AccessWidth} (hd : d + w.bytes ≤ 4) := (bytesWritten_writeBytes (v := v) hb hm).memRead hb hd
  have hword := read (d := 0) (w := .word) (by decide)
  have hbyte := read (d := 0) (w := .byte) (by decide)
  have hhalf := read (d := 0) (w := .half) (by decide)
  simp only [BitVec.add_zero] at hword hbyte hhalf
  refine ⟨?_, hbyte, read (d := 1) (w := .byte) (by decide), hhalf, read (d := 2) (w := .half) (by decide)⟩
  simpa [AccessWidth.bytes] using hword

end Sys2Proof.Proofs
end

section
/-! The loader port: a segment is loaded whole or not at all, and the first that does not fit ends the run
(spec/20_memory.md R53, spec/70_reset_and_hazards.md R273). -/

namespace Sys2Proof.Machine

theorem loadSegment_of_inBounds {m : Memory} {seg : Segment} (hb : inBounds seg.1 seg.2.length = true) :
    loadSegment m seg = .ok (m.writeBytes seg.1.toNat seg.2) := by simp [loadSegment, hb]

theorem loadSegment_of_outOfBounds {m : Memory} {seg : Segment} (hb : inBounds seg.1 seg.2.length = false) :
    loadSegment m seg = .error .outOfBounds := by simp [loadSegment, hb]

theorem loadSegments_cons_of_inBounds {seg : Segment} (rest : List Segment) (s : State)
    (hb : inBounds seg.1 seg.2.length = true) :
    loadSegments (seg :: rest) s = loadSegments rest (s.setMem (s.mem.writeBytes seg.1.toNat seg.2)) := by
  simp only [loadSegments, loadSegment_of_inBounds hb]

theorem loadSegments_cons_of_outOfBounds {seg : Segment} (rest : List Segment) (s : State)
    (hb : inBounds seg.1 seg.2.length = false) : loadSegments (seg :: rest) s = s.raise .outOfBounds := by
  simp only [loadSegments, loadSegment_of_outOfBounds hb]

/-- Segments that all fit leave the run state alone, and the loader goes on with what follows them (R53). -/
theorem loadSegments_append_of_inBounds {good : List Segment} (rest : List Segment) (s : State)
    (hg : ∀ seg ∈ good, inBounds seg.1 seg.2.length = true) :
    (loadSegments good s).run = s.run ∧ loadSegments (good ++ rest) s = loadSegments rest (loadSegments good s) := by
  induction good generalizing s with
  | nil => exact ⟨rfl, rfl⟩
  | cons seg good ih =>
    obtain ⟨hseg, hgood⟩ := List.forall_mem_cons.mp hg
    rw [List.cons_append, loadSegments_cons_of_inBounds _ s hseg, loadSegments_cons_of_inBounds _ s hseg]
    exact ih _ hgood

/-- A halted core changes nothing (R118). -/
theorem step_of_halted {s : State} {o : RunOutcome} (h : s.run = .halted o) : step s = .next s := by
  simp only [step, h]

end Sys2Proof.Machine

namespace Sys2Proof.Proofs

open Sys2Proof.Machine

/-- Settles O48: the loader writes the bytes of a segment in the window from its address up, and refuses any other. -/
theorem loadSegmentExact : Obligations.LoadSegmentExact := by
  intro m a bs hm
  constructor
  · intro hlo hhi
    have hb : inBounds a bs.length = true := inBounds_iff_window.mpr ⟨hlo, hhi⟩
    exact ⟨_, loadSegment_of_inBounds hb, fun _ hk => Memory.readByte_writeBytes_inside hb hm hk,
      fun _ h => Memory.readByte_writeBytes_outside hb hm h⟩
  · intro hout
    refine loadSegment_of_outOfBounds (Bool.eq_false_iff.mpr fun hb => ?_)
    obtain ⟨hlo, hhi⟩ := (inBounds_iff_window (a := a) (w := bs.length)).mp hb
    omega

/-- Settles O49: the segments that fit are loaded, the next one raises OutOfBounds, and a halted core steps to itself. -/
theorem loaderStopsAtFirstFailure : Obligations.LoaderStopsAtFirstFailure := by
  intro good rest bad s hs hg hbad
  obtain ⟨hrun, happ⟩ := loadSegments_append_of_inBounds (bad :: rest) s hg
  rw [happ, loadSegments_cons_of_outOfBounds rest _ hbad]
  exact ⟨hrun.trans hs, rfl, step_of_halted (State.raise_run _ _)⟩

end Sys2Proof.Proofs
end

section
/-! Decoding an encoded instruction: the fields of each layout (spec/30_encoding.md R71 to R76, R78), and from them the
operation that the opcode class selects (R81 to R89). -/

namespace Sys2Proof

/-! ## Fields of a concatenation -/

/-- The bits above the low part of a concatenation are bits of the high part. -/
theorem extractLsb'_append_high {n m : Nat} (x : BitVec n) (y : BitVec m) (start len : Nat) :
    (x ++ y).extractLsb' (start + m) len = x.extractLsb' start len := by
  rw [BitVec.extractLsb'_append_eq_of_le (by omega), Nat.add_sub_cancel]

/-- Bits within a field are bits of the field. -/
theorem extractLsb'_of_field {n start len : Nat} {x : BitVec n} {f : BitVec len} (hf : x.extractLsb' start len = f)
    (d k : Nat) (h : d + k ≤ len) : x.extractLsb' (start + d) k = f.extractLsb' d k := by
  rw [← hf]
  apply BitVec.eq_of_getLsbD_eq
  intro i hi
  have hlt : d + i < len := by omega
  simp [hi, hlt, Nat.add_assoc]

section Layouts

variable (f7 : BitVec 7) (rs2 rs1 rd : RegIdx) (f3 : BitVec 3) (op : BitVec 7) (c : OpClass) (imm : BitVec 12)

theorem rdOf_append (x : BitVec 20) : rdOf (x ++ rd ++ op) = rd :=
  (extractLsb'_append_high _ _ 0 5).trans BitVec.extractLsb'_append_eq_right

theorem funct3Of_append (x : BitVec 17) : funct3Of (x ++ f3 ++ rd ++ op) = f3 :=
  (extractLsb'_append_high _ _ 5 3).trans <| (extractLsb'_append_high _ _ 0 3).trans
    BitVec.extractLsb'_append_eq_right

theorem rs1Of_append (x : BitVec 12) : rs1Of (x ++ rs1 ++ f3 ++ rd ++ op) = rs1 :=
  (extractLsb'_append_high _ _ 8 5).trans <| (extractLsb'_append_high _ _ 3 5).trans <|
    (extractLsb'_append_high _ _ 0 5).trans BitVec.extractLsb'_append_eq_right

/-- What stands above rs1 in a word with the low fields of R and I (R78). -/
theorem immIField_append (x : BitVec 12) : immIField (x ++ rs1 ++ f3 ++ rd ++ op) = x :=
  (extractLsb'_append_high _ _ 13 12).trans <| (extractLsb'_append_high _ _ 8 12).trans <|
    (extractLsb'_append_high _ _ 5 12).trans BitVec.extractLsb'_append_eq_left

@[simp] theorem rdOf_encodeR : rdOf (encodeR f7 rs2 rs1 f3 rd c) = rd := rdOf_append _ _ _
@[simp] theorem funct3Of_encodeR : funct3Of (encodeR f7 rs2 rs1 f3 rd c) = f3 := funct3Of_append _ _ _ _
@[simp] theorem rs1Of_encodeR : rs1Of (encodeR f7 rs2 rs1 f3 rd c) = rs1 := rs1Of_append _ _ _ _ _
theorem immIField_encodeR : immIField (encodeR f7 rs2 rs1 f3 rd c) = f7 ++ rs2 := immIField_append _ _ _ _ _

@[simp] theorem rs2Of_encodeR : rs2Of (encodeR f7 rs2 rs1 f3 rd c) = rs2 :=
  (extractLsb'_of_field (immIField_encodeR ..) 0 5 (by decide)).trans BitVec.extractLsb'_append_eq_right

@[simp] theorem funct7Of_encodeR : funct7Of (encodeR f7 rs2 rs1 f3 rd c) = f7 :=
  (extractLsb'_of_field (immIField_encodeR ..) 5 7 (by decide)).trans BitVec.extractLsb'_append_eq_left

@[simp] theorem rdOf_encodeI : rdOf (encodeI imm rs1 f3 rd c) = rd := rdOf_append _ _ _
@[simp] theorem funct3Of_encodeI : funct3Of (encodeI imm rs1 f3 rd c) = f3 := funct3Of_append _ _ _ _
@[simp] theorem rs1Of_encodeI : rs1Of (encodeI imm rs1 f3 rd c) = rs1 := rs1Of_append _ _ _ _ _
@[simp] theorem immIField_encodeI : immIField (encodeI imm rs1 f3 rd c) = imm := immIField_append _ _ _ _ _

@[simp] theorem rs1Of_encodeS : rs1Of (encodeS imm rs2 rs1 f3 c) = rs1 := rs1Of_encodeR ..
@[simp] theorem rs2Of_encodeS : rs2Of (encodeS imm rs2 rs1 f3 c) = rs2 := rs2Of_encodeR ..
@[simp] theorem funct3Of_encodeS : funct3Of (encodeS imm rs2 rs1 f3 c) = f3 := funct3Of_encodeR ..

/-- imm[11:5] ++ imm[4:0] (R73). -/
@[simp] theorem immSField_encodeS : immSField (encodeS imm rs2 rs1 f3 c) = imm :=
  calc immSField (encodeS imm rs2 rs1 f3 c)
    _ = funct7Of (encodeS imm rs2 rs1 f3 c) ++ rdOf (encodeS imm rs2 rs1 f3 c) := rfl
    _ = imm.extractLsb' 5 7 ++ imm.extractLsb' 0 5 := by rw [encodeS, funct7Of_encodeR, rdOf_encodeR]
    _ = imm := (BitVec.extractLsb'_append_extractLsb'_eq_extractLsb' rfl).trans BitVec.extractLsb'_eq_self

@[simp] theorem rs1Of_encodeB (imm : BitVec 13) : rs1Of (encodeB imm rs2 rs1 f3 c) = rs1 := rs1Of_encodeR ..
@[simp] theorem rs2Of_encodeB (imm : BitVec 13) : rs2Of (encodeB imm rs2 rs1 f3 c) = rs2 := rs2Of_encodeR ..
@[simp] theorem funct3Of_encodeB (imm : BitVec 13) : funct3Of (encodeB imm rs2 rs1 f3 c) = f3 := funct3Of_encodeR ..

@[simp] theorem rdOf_encodeU (imm : BitVec 20) : rdOf (encodeU imm rd c) = rd := rdOf_append _ _ _
@[simp] theorem immUField_encodeU (imm : BitVec 20) : immUField (encodeU imm rd c) = imm :=
  (extractLsb'_append_high _ _ 5 20).trans BitVec.extractLsb'_append_eq_left

@[simp] theorem rdOf_encodeJ (imm : BitVec 21) : rdOf (encodeJ imm rd c) = rd := rdOf_encodeU ..

/-- The B-immediate is made of the bits of the fields that R has as funct7 and rd (R74). -/
theorem immBField_encodeR (a e : BitVec 1) (b : BitVec 6) (d : BitVec 4) :
    immBField (encodeR (a ++ b) rs2 rs1 f3 (d ++ e) c) = a ++ e ++ b ++ d ++ 0#1 := by
  have field7 := extractLsb'_of_field (funct7Of_encodeR (a ++ b) rs2 rs1 (d ++ e) f3 c)
  have fieldRd := extractLsb'_of_field (rdOf_encodeR (a ++ b) rs2 rs1 (d ++ e) f3 c)
  rw [immBField, field7 6 1 (by decide), fieldRd 0 1 (by decide), field7 0 6 (by decide),
    fieldRd 1 4 (by decide), BitVec.extractLsb'_append_eq_left, BitVec.extractLsb'_append_eq_left,
    BitVec.extractLsb'_append_eq_right, BitVec.extractLsb'_append_eq_right]

/-- The J-immediate is made of the bits of the field that U has as its immediate (R76). -/
theorem immJField_encodeU (a e : BitVec 1) (b : BitVec 10) (d : BitVec 8) :
    immJField (encodeU (a ++ b ++ e ++ d) rd c) = a ++ d ++ e ++ b ++ 0#1 := by
  have field := extractLsb'_of_field (immUField_encodeU rd c (a ++ b ++ e ++ d))
  rw [immJField, field 19 1 (by decide), field 0 8 (by decide), field 8 1 (by decide), field 9 10 (by decide),
    BitVec.extractLsb'_append_eq_right,
    extractLsb'_append_high _ d 11 1, extractLsb'_append_high _ e 10 1, BitVec.extractLsb'_append_eq_left,
    extractLsb'_append_high _ d 0 1, BitVec.extractLsb'_append_eq_right,
    extractLsb'_append_high _ d 1 10, extractLsb'_append_high _ e 0 10, BitVec.extractLsb'_append_eq_right]

/-- The lowest bit of an even number is 0 (R74, R76). -/
theorem zero_eq_extractLsb'_of_even {n : Nat} {imm : BitVec n} (h : (!imm.getLsbD 0) = true) :
    0#1 = imm.extractLsb' 0 1 := by
  apply BitVec.eq_of_getLsbD_eq
  intro i hi
  obtain rfl : i = 0 := by omega
  simpa using h

/-- imm[12] ++ imm[11] ++ imm[10:5] ++ imm[4:1] ++ 0 (R74). -/
theorem immBField_encodeB {imm : BitVec 13} (h : branchOffsetOk imm = true) :
    immBField (encodeB imm rs2 rs1 f3 c) = imm := by
  rw [encodeB, immBField_encodeR, zero_eq_extractLsb'_of_even h,
    BitVec.extractLsb'_append_extractLsb'_eq_extractLsb' (start₁ := 11) (len₁ := 1) rfl,
    BitVec.extractLsb'_append_extractLsb'_eq_extractLsb' (start₁ := 5) (len₁ := 6) rfl,
    BitVec.extractLsb'_append_extractLsb'_eq_extractLsb' (start₁ := 1) (len₁ := 4) rfl,
    BitVec.extractLsb'_append_extractLsb'_eq_extractLsb' (start₁ := 0) (len₁ := 1) rfl]
  exact BitVec.extractLsb'_eq_self

/-- imm[20] ++ imm[19:12] ++ imm[11] ++ imm[10:1] ++ 0 (R76). -/
theorem immJField_encodeJ {imm : BitVec 21} (h : jumpOffsetOk imm = true) : immJField (encodeJ imm rd c) = imm := by
  rw [encodeJ, immJField_encodeU, zero_eq_extractLsb'_of_even h,
    BitVec.extractLsb'_append_extractLsb'_eq_extractLsb' (start₁ := 12) (len₁ := 8) rfl,
    BitVec.extractLsb'_append_extractLsb'_eq_extractLsb' (start₁ := 11) (len₁ := 1) rfl,
    BitVec.extractLsb'_append_extractLsb'_eq_extractLsb' (start₁ := 1) (len₁ := 10) rfl,
    BitVec.extractLsb'_append_extractLsb'_eq_extractLsb' (start₁ := 0) (len₁ := 1) rfl]
  exact BitVec.extractLsb'_eq_self

end Layouts

/-! ## The decoder on an encoded word -/

/-- The class that an opcode of the table selects (R81). -/
@[simp] theorem classOf_opcode (c : OpClass) : classOf c.opcode = some c := by cases c <;> rfl

/-- The word of an instruction carries the opcode of its class (R71, R81). -/
@[simp] theorem opcodeOf_encode (i : Instr) : opcodeOf (encode i) = i.opClass.opcode := by
  cases i <;> exact Laws.EncodedOpcode.low_of_append _ _

/-- FENCE keeps fm, pred and succ as w[31:28], w[27:24] and w[23:20] (R87). -/
theorem decodeMiscmem_encodeI (fm pred succ : BitVec 4) (rs1 rd : RegIdx) :
    decodeMiscmem (encodeI (fm ++ pred ++ succ) rs1 0b000#3 rd .miscmem) = some (.fence fm pred succ rs1 rd) := by
  have field := extractLsb'_of_field (immIField_encodeI rs1 rd 0b000#3 .miscmem (fm ++ pred ++ succ))
  rw [decodeMiscmem, funct3Of_encodeI, rs1Of_encodeI, rdOf_encodeI, field 8 4 (by decide), field 4 4 (by decide),
    field 0 4 (by decide), if_pos rfl, BitVec.extractLsb'_append_eq_right,
    extractLsb'_append_high _ succ 4 4, BitVec.extractLsb'_append_eq_left,
    extractLsb'_append_high _ succ 0 4, BitVec.extractLsb'_append_eq_right]

/-- Within its class, the word of a well-formed instruction decodes to the instruction (R82 to R89). -/
theorem decodeIn_encode {i : Instr} (h : i.wf = true) : decodeIn i.opClass (encode i) = some i := by
  cases i
  case jal => simp [encode, decodeIn, Instr.opClass, immJField_encodeJ _ _ h]
  case beq | bne | blt | bge | bltu | bgeu =>
    simp [encode, decodeIn, Instr.opClass, decodeBranch, immBField_encodeB _ _ _ _ h]
  case sb | sh | sw => simp [encode, decodeIn, Instr.opClass, decodeStore]
  case lb | lh | lw | lbu | lhu => simp [encode, decodeIn, Instr.opClass, decodeLoad]
  case fence => exact decodeMiscmem_encodeI ..
  case ecall => rfl
  case lui | auipc => simp [encode, decodeIn, Instr.opClass]
  case jalr => simp [encode, decodeIn, Instr.opClass, decodeJalr]
  case addi | slti | sltiu | xori | ori | andi | slli | srli | srai =>
    simp [encode, decodeIn, Instr.opClass, decodeImm]
  case add | sub | sll | slt | sltu | xor | srl | sra | or | and =>
    simp [encode, decodeIn, Instr.opClass, decodeOp]

theorem decodeWord_encode {i : Instr} (h : i.wf = true) : decodeWord (encode i) = .ok i := by
  simp only [decodeWord, opcodeOf_encode, classOf_opcode, decodeIn_encode h]

end Sys2Proof
end

section
/-! A stored word as an instruction: stores are seen by the next fetch (spec/20_memory.md R59,
spec/70_reset_and_hazards.md R276). -/

namespace Sys2Proof.Machine

theorem store_of_inBounds {s : State} {n : AccessWidth} {ea : Word} (v : Word) (hb : inBounds ea n.bytes = true) :
    store s n ea v = .next ((s.setMem (s.mem.writeBytes ea.toNat (bytesOfWord n.bytes v))).setPc s.nextPc) := by
  simp only [store, memWrite_of_inBounds v hb]

/-- A running core executes the instruction that the word at pc decodes to (R119). -/
theorem step_of_fetchWord {s : State} {w : Word} {i : Instr} (hrun : s.run = .running)
    (hf : fetchWord s.mem s.pc = .ok w) (hd : decodeWord w = .ok i) : step s = exec i s := by
  simp only [step, hrun, fetchInstr, hf, hd]

/-- The word written in bounds is the word fetched there (R48). -/
theorem fetchWord_writeBytes {m : Memory} {a : Word} (v : Word) (hb : inBounds a 4 = true) (hm : m.wf = true) :
    fetchWord (m.writeBytes a.toNat (bytesOfWord 4 v)) a = .ok v := by
  rw [fetchWord_eq_memRead]
  exact (Proofs.mixedWidthReads m _ a v hm (memWrite_of_inBounds (n := .word) v hb)).1

end Sys2Proof.Machine

namespace Sys2Proof.Proofs

open Sys2Proof.Machine

/-- Settles O42: the fetch reads the word SW wrote, and the decoder undoes the encoding. -/
theorem storedInstructionIsFetched : Obligations.StoredInstructionIsFetched := by
  intro s t rs1 rs2 imm i hm hrun hwf hb hv h
  cases (store_of_inBounds (n := .word) (s.readReg rs2) hb).symm.trans h
  have hfetch := fetchWord_writeBytes (s.readReg rs2) hb hm
  exact step_of_fetchWord hrun hfetch (hv ▸ decodeWord_encode hwf)

end Sys2Proof.Proofs
end

section
/-! What a step reads of memory: the 4 bytes at pc and the bytes a load names. The same state over two memories that agree
there goes on alike (spec/20_memory.md R52, R56, spec/40_datapath.md R113, R120). -/

namespace Sys2Proof.Machine

variable {s t t' : State} {m : Memory}

/-- `t` and `t'`, reached from memories `m₀` and `m`, are alike but in memory, where they differ only as `m₀` and `m` did. -/
structure GoesAlike (m₀ m : Memory) (t t' : State) : Prop where
  regs : t'.regs = t.regs
  pc : t'.pc = t.pc
  run : t'.run = t.run
  conv : t'.conv = t.conv
  mem : ∀ a, m.readByte a = m₀.readByte a → t'.mem.readByte a = t.mem.readByte a

/-- A state that keeps its memory goes on like itself with the other memory. -/
theorem GoesAlike.of_mem_eq (h : t.mem = s.mem) : GoesAlike s.mem m t (t.setMem m) :=
  ⟨rfl, rfl, rfl, rfl, fun _ ha => h ▸ ha⟩

theorem wordOfBytes_readBytes_eq_wordAt (s : State) (a : Word) :
    wordOfBytes (s.mem.readBytes a.toNat 4) = Claims.wordAt s a :=
  wordOfBytes_four _ _ _ _

theorem memRead_congr {m' : Memory} {a : Word} {n : AccessWidth}
    (h : ∀ k, k < n.bytes → m'.readByte (a.toNat + k) = m.readByte (a.toNat + k)) : memRead m' a n = memRead m a n := by
  rw [memRead, memRead, Memory.readBytes_congr h]

/-- An instruction that is fetched is what the word at pc decodes to. -/
theorem decodeWord_of_fetchInstr {i : Instr} (h : fetchInstr s = .ok i) : decodeWord (Claims.wordAt s s.pc) = .ok i := by
  obtain ⟨_, e⟩ | ⟨_, e⟩ := fetchWord_cases (m := s.mem) (a := s.pc) <;> simp only [fetchInstr, e] at h
  · cases h
  · rwa [← wordOfBytes_readBytes_eq_wordAt]

/-- Writing the same bytes to both memories makes no new difference. -/
theorem Memory.writeBytes_alike {m₀ : Memory} {a : Word} {bs : List Byte} (hb : inBounds a bs.length = true)
    (hm₀ : m₀.wf = true) (hm : m.wf = true) {b : Nat} (h : m.readByte b = m₀.readByte b) :
    (m.writeBytes a.toNat bs).readByte b = (m₀.writeBytes a.toNat bs).readByte b := by
  obtain ⟨hlo, hhi⟩ := inBounds_iff.mp hb
  rw [Memory.readByte_writeBytes hlo hhi hm, Memory.readByte_writeBytes hlo hhi hm₀, h]

/-- A load goes on alike when the bytes it names read alike (R170). -/
theorem load_goesAlike {n : AccessWidth} {ext : Word → Word} {rd : RegIdx} {ea : Word}
    (hr : ∀ k, k < n.bytes → m.readByte (ea.toNat + k) = s.mem.readByte (ea.toNat + k))
    (h : load s n ext rd ea = .next t) (h' : load (s.setMem m) n ext rd ea = .next t') : GoesAlike s.mem m t t' := by
  simp only [load, State.setMem_mem, memRead_congr hr] at h h'
  cases e : memRead s.mem ea n <;> simp only [e] at h h' <;> cases h <;> cases h' <;> exact .of_mem_eq rfl

/-- A store goes on alike: both memories take the same bytes, or neither takes one (R176). -/
theorem store_goesAlike {n : AccessWidth} {ea v : Word} (hs : s.mem.wf = true) (hm : m.wf = true)
    (h : store s n ea v = .next t) (h' : store (s.setMem m) n ea v = .next t') : GoesAlike s.mem m t t' := by
  cases hb : inBounds ea n.bytes
  · simp only [store, memWrite_of_outOfBounds v hb] at h h'
    cases h; cases h'
    exact .of_mem_eq rfl
  · have hb' : inBounds ea (bytesOfWord n.bytes v).length = true := (bytesOfWord_length n.bytes v).symm ▸ hb
    cases (store_of_inBounds v hb).symm.trans h
    cases (store_of_inBounds v hb).symm.trans h'
    exact ⟨rfl, rfl, rfl, rfl, fun _ ha => Memory.writeBytes_alike hb' hs hm ha⟩

/-- Every instruction goes on alike when the bytes it loads read alike: loads and stores by their own lemmas, every other
one because it neither reads nor writes memory. -/
theorem exec_goesAlike {i : Instr} (hs : s.mem.wf = true) (hm : m.wf = true)
    (hl : ∀ rs1 imm n, i.opClass = .load → i.access = some (rs1, imm, n) → ∀ k, k < n →
      m.readByte ((effectiveAddress s rs1 imm).toNat + k) = s.mem.readByte ((effectiveAddress s rs1 imm).toNat + k))
    (h : exec i s = .next t) (h' : exec i (s.setMem m) = .next t') : GoesAlike s.mem m t t' := by
  cases i
  case lb | lh | lw | lbu | lhu => exact load_goesAlike (hl _ _ _ rfl rfl) h h'
  case sb | sh | sw => exact store_goesAlike hs hm h h'
  all_goals cases h; cases h'; exact .of_mem_eq rfl

/-- A step goes on alike when the fetched bytes and those the fetched instruction loads read alike: both steps fetch the
same word; from there they stay halted, take the same error, or run the same instruction. -/
theorem step_goesAlike (hs : s.mem.wf = true) (hm : m.wf = true)
    (hf : ∀ k, k < 4 → m.readByte (s.pc.toNat + k) = s.mem.readByte (s.pc.toNat + k))
    (hl : ∀ i rs1 imm n, fetchInstr s = .ok i → i.opClass = .load → i.access = some (rs1, imm, n) → ∀ k, k < n →
      m.readByte ((effectiveAddress s rs1 imm).toNat + k) = s.mem.readByte ((effectiveAddress s rs1 imm).toNat + k))
    (h : step s = .next t) (h' : step (s.setMem m) = .next t') : GoesAlike s.mem m t t' := by
  have hword : fetchWord m s.pc = fetchWord s.mem s.pc := memRead_congr (n := .word) hf
  have hfetch : fetchInstr (s.setMem m) = fetchInstr s := by
    simp only [fetchInstr, State.setMem_mem, State.setMem_pc, hword]
  obtain ⟨o, hrun, e⟩ | ⟨k, hrun, hi, e⟩ | ⟨i, hrun, hi, e⟩ := step_cases s
  · cases e.symm.trans h
    cases (step_of_halted (s := s.setMem m) hrun).symm.trans h'
    exact .of_mem_eq rfl
  · simp only [step, State.setMem_run, hrun, hfetch, hi] at h'
    cases e.symm.trans h; cases h'
    exact .of_mem_eq rfl
  · simp only [step, State.setMem_run, hrun, hfetch, hi] at h'
    exact exec_goesAlike hs hm (fun rs1 imm n => hl i rs1 imm n hi) (e.symm.trans h) h'

end Sys2Proof.Machine

namespace Sys2Proof.Proofs

open Sys2Proof.Machine

/-- Settles O36: the two steps go on alike, the fetched instruction being what the word at pc decodes to. -/
theorem stepReadsOnlyFetchAndLoad : Obligations.StepReadsOnlyFetchAndLoad := by
  intro s m t t' hs hm hf hl h h'
  obtain ⟨hregs, hpc, hrun, hconv, hmem⟩ :=
    step_goesAlike hs hm hf (fun i rs1 imm n hi => hl i rs1 imm n (decodeWord_of_fetchInstr hi)) h h'
  exact ⟨hregs, hpc, hrun, hconv, hmem⟩

end Sys2Proof.Proofs
end

section
/-! Encoding a decoded word: a word is the concatenation of its fields, and each class's decoder answers the instruction
whose encoding puts those fields back (spec/30_encoding.md R71 to R76, R78, R81 to R89). -/

namespace Sys2Proof

/-! ## A word is its fields, in the order of its layout (R78) -/

section Fields

variable {w : Word} {c : OpClass}

theorem immIField_eq_append (w : Word) : immIField w = funct7Of w ++ rs2Of w :=
  (BitVec.extractLsb'_append_extractLsb'_eq_extractLsb' (start₁ := 20) (len₁ := 5) rfl).symm

theorem immUField_eq_append (w : Word) : immUField w = immIField w ++ rs1Of w ++ funct3Of w := by
  rw [immIField, rs1Of, funct3Of, BitVec.extractLsb'_append_extractLsb'_eq_extractLsb' (start₁ := 15) (len₁ := 5) rfl,
    BitVec.extractLsb'_append_extractLsb'_eq_extractLsb' (start₁ := 12) (len₁ := 3) rfl, immUField]

theorem encodeU_fields (h : opcodeOf w = c.opcode) : encodeU (immUField w) (rdOf w) c = w := by
  rw [encodeU, ← h, immUField, rdOf, opcodeOf,
    BitVec.extractLsb'_append_extractLsb'_eq_extractLsb' (start₁ := 7) (len₁ := 5) rfl,
    BitVec.extractLsb'_append_extractLsb'_eq_extractLsb' (start₁ := 0) (len₁ := 7) rfl]
  exact BitVec.extractLsb'_eq_self

theorem encodeI_fields (h : opcodeOf w = c.opcode) :
    encodeI (immIField w) (rs1Of w) (funct3Of w) (rdOf w) c = w := by
  rw [encodeI, ← immUField_eq_append]
  exact encodeU_fields h

theorem encodeR_fields (h : opcodeOf w = c.opcode) :
    encodeR (funct7Of w) (rs2Of w) (rs1Of w) (funct3Of w) (rdOf w) c = w := by
  rw [encodeR, ← immIField_eq_append]
  exact encodeI_fields h

/-- S has the two parts of its immediate where R has funct7 and rd (R73). -/
theorem encodeS_append (hi : BitVec 7) (lo rs2 rs1 : BitVec 5) (f3 : BitVec 3) (c : OpClass) :
    encodeS (hi ++ lo) rs2 rs1 f3 c = encodeR hi rs2 rs1 f3 lo c := by
  rw [encodeS, BitVec.extractLsb'_append_eq_left, BitVec.extractLsb'_append_eq_right]

theorem encodeS_fields (h : opcodeOf w = c.opcode) :
    encodeS (immSField w) (rs2Of w) (rs1Of w) (funct3Of w) c = w :=
  (encodeS_append ..).trans (encodeR_fields h)

/-- B has the bits of its immediate, reordered, where R has funct7 and rd (R74). -/
theorem encodeB_append (a e : BitVec 1) (b : BitVec 6) (d : BitVec 4) (rs2 rs1 : RegIdx) (f3 : BitVec 3)
    (c : OpClass) : encodeB (a ++ e ++ b ++ d ++ 0#1) rs2 rs1 f3 c = encodeR (a ++ b) rs2 rs1 f3 (d ++ e) c := by
  rw [encodeB, extractLsb'_append_high _ 0#1 11 1, extractLsb'_append_high _ 0#1 4 6,
    extractLsb'_append_high _ 0#1 0 4, extractLsb'_append_high _ 0#1 10 1, BitVec.extractLsb'_append_eq_right,
    extractLsb'_append_high _ d 7 1, extractLsb'_append_high _ d 0 6, extractLsb'_append_high _ d 6 1,
    BitVec.extractLsb'_append_eq_right, extractLsb'_append_high _ b 1 1, extractLsb'_append_high _ b 0 1,
    BitVec.extractLsb'_append_eq_left, BitVec.extractLsb'_append_eq_right]

theorem encodeB_fields (h : opcodeOf w = c.opcode) :
    encodeB (immBField w) (rs2Of w) (rs1Of w) (funct3Of w) c = w := by
  rw [immBField, encodeB_append, BitVec.extractLsb'_append_extractLsb'_eq_extractLsb' (start₁ := 25) (len₁ := 6) rfl,
    BitVec.extractLsb'_append_extractLsb'_eq_extractLsb' (start₁ := 7) (len₁ := 1) rfl]
  exact encodeR_fields h

/-- J has the bits of its immediate, reordered, where U has its own (R76). -/
theorem encodeJ_append (a e : BitVec 1) (b : BitVec 10) (d : BitVec 8) (rd : RegIdx) (c : OpClass) :
    encodeJ (a ++ d ++ e ++ b ++ 0#1) rd c = encodeU (a ++ b ++ e ++ d) rd c := by
  rw [encodeJ, extractLsb'_append_high _ 0#1 19 1, extractLsb'_append_high _ 0#1 0 10,
    extractLsb'_append_high _ 0#1 10 1, extractLsb'_append_high _ 0#1 11 8, BitVec.extractLsb'_append_eq_right,
    extractLsb'_append_high _ b 9 1, extractLsb'_append_high _ b 0 1, extractLsb'_append_high _ b 1 8,
    BitVec.extractLsb'_append_eq_right, extractLsb'_append_high _ e 8 1, extractLsb'_append_high _ e 0 8,
    BitVec.extractLsb'_append_eq_left, BitVec.extractLsb'_append_eq_right]

theorem encodeJ_fields (h : opcodeOf w = c.opcode) : encodeJ (immJField w) (rdOf w) c = w := by
  rw [immJField, encodeJ_append, BitVec.extractLsb'_append_extractLsb'_eq_extractLsb' (start₁ := 21) (len₁ := 10) rfl,
    BitVec.extractLsb'_append_extractLsb'_eq_extractLsb' (start₁ := 20) (len₁ := 1) rfl,
    BitVec.extractLsb'_append_extractLsb'_eq_extractLsb' (start₁ := 12) (len₁ := 8) rfl]
  exact encodeU_fields h

/-- A B-immediate ends in a 0 (R74). -/
theorem branchOffsetOk_append (x : BitVec 12) : branchOffsetOk (x ++ 0#1) = true := by
  rw [branchOffsetOk, BitVec.getLsbD_append]; rfl

/-- A J-immediate ends in a 0 (R76). -/
theorem jumpOffsetOk_append (x : BitVec 20) : jumpOffsetOk (x ++ 0#1) = true := by
  rw [jumpOffsetOk, BitVec.getLsbD_append]; rfl

end Fields

/-! ## What each class's decoder answers (R82 to R89) -/

section Decoders

variable {f3 : BitVec 3} {f7 : BitVec 7} {rd rs1 rs2 shamt : RegIdx} {imm : BitVec 12} {i : Instr} {w : Word}

/-- The values of funct3, as the tables of R82 to R86 go through them. -/
theorem funct3_cases : ∀ f3 : BitVec 3, f3 = 0b000#3 ∨ f3 = 0b001#3 ∨ f3 = 0b010#3 ∨ f3 = 0b011#3 ∨ f3 = 0b100#3 ∨
    f3 = 0b101#3 ∨ f3 = 0b110#3 ∨ f3 = 0b111#3 := by decide

theorem encode_of_decodeJalr (h : decodeJalr f3 rd rs1 imm = some i) :
    i.wf = true ∧ encode i = encodeI imm rs1 f3 rd .jalr := by
  simp only [decodeJalr] at h
  split_ifs at h
  cases h; subst f3; exact ⟨rfl, rfl⟩

theorem encode_of_decodeBranch {imm : BitVec 13} (h : decodeBranch f3 rs1 rs2 imm = some i) :
    i.wf = branchOffsetOk imm ∧ encode i = encodeB imm rs2 rs1 f3 .branch := by
  simp only [decodeBranch] at h
  split_ifs at h <;> cases h <;> subst f3 <;> exact ⟨rfl, rfl⟩

theorem encode_of_decodeLoad (h : decodeLoad f3 rd rs1 imm = some i) :
    i.wf = true ∧ encode i = encodeI imm rs1 f3 rd .load := by
  simp only [decodeLoad] at h
  split_ifs at h <;> cases h <;> subst f3 <;> exact ⟨rfl, rfl⟩

theorem encode_of_decodeStore (h : decodeStore f3 rs1 rs2 imm = some i) :
    i.wf = true ∧ encode i = encodeS imm rs2 rs1 f3 .store := by
  simp only [decodeStore] at h
  split_ifs at h <;> cases h <;> subst f3 <;> exact ⟨rfl, rfl⟩

/-- A shift's immediate is its funct7 over its amount (R80, R85). -/
theorem encode_of_decodeImm (h : decodeImm f3 f7 rd rs1 (f7 ++ shamt) shamt = some i) :
    i.wf = true ∧ encode i = encodeR f7 shamt rs1 f3 rd .imm := by
  obtain rfl | rfl | rfl | rfl | rfl | rfl | rfl | rfl := funct3_cases f3
  -- funct3 001 and 101, the shifts, look at funct7
  case inr.inl | inr.inr.inr.inr.inr.inl =>
    simp only [decodeImm, reduceIte, BitVec.reduceEq] at h
    split_ifs at h <;> cases h <;> subst f7 <;> exact ⟨rfl, rfl⟩
  all_goals cases h; exact ⟨rfl, rfl⟩

theorem encode_of_decodeOp (h : decodeOp f3 f7 rd rs1 rs2 = some i) :
    i.wf = true ∧ encode i = encodeR f7 rs2 rs1 f3 rd .op := by
  by_cases h0 : f7 = 0b0000000#7
  · subst h0
    obtain rfl | rfl | rfl | rfl | rfl | rfl | rfl | rfl := funct3_cases f3 <;> cases h <;> exact ⟨rfl, rfl⟩
  · simp only [decodeOp, if_neg h0] at h
    split_ifs at h <;> cases h <;> subst f7 f3 <;> exact ⟨rfl, rfl⟩

theorem decodeMiscmem_eq_some_iff : decodeMiscmem w = some i ↔ funct3Of w = 0b000#3 ∧
    .fence (w.extractLsb' 28 4) (w.extractLsb' 24 4) (w.extractLsb' 20 4) (rs1Of w) (rdOf w) = i := by
  simp [decodeMiscmem]

theorem decodeSystem_eq_some_iff : decodeSystem w = some i ↔ w = 0x00000073#32 ∧ .ecall = i := by
  simp [decodeSystem]

theorem decodeJalr_eq_none_iff : decodeJalr f3 rd rs1 imm = none ↔ f3 ≠ 0b000#3 := by
  simp [decodeJalr]

theorem decodeBranch_eq_none_iff {imm : BitVec 13} :
    decodeBranch f3 rs1 rs2 imm = none ↔ f3 ∈ [0b010#3, 0b011#3] := by
  obtain rfl | rfl | rfl | rfl | rfl | rfl | rfl | rfl := funct3_cases f3 <;> simp [decodeBranch]

theorem decodeLoad_eq_none_iff : decodeLoad f3 rd rs1 imm = none ↔ f3 ∈ [0b011#3, 0b110#3, 0b111#3] := by
  obtain rfl | rfl | rfl | rfl | rfl | rfl | rfl | rfl := funct3_cases f3 <;> simp [decodeLoad]

theorem decodeStore_eq_none_iff :
    decodeStore f3 rs1 rs2 imm = none ↔ f3 ∈ [0b011#3, 0b100#3, 0b101#3, 0b110#3, 0b111#3] := by
  obtain rfl | rfl | rfl | rfl | rfl | rfl | rfl | rfl := funct3_cases f3 <;> simp [decodeStore]

theorem decodeImm_eq_none_iff : decodeImm f3 f7 rd rs1 imm shamt = none ↔
    (f3 = 0b001#3 ∧ f7 ≠ 0b0000000#7) ∨ (f3 = 0b101#3 ∧ f7 ∉ [0b0000000#7, 0b0100000#7]) := by
  obtain rfl | rfl | rfl | rfl | rfl | rfl | rfl | rfl := funct3_cases f3 <;> simp [decodeImm, ite_eq_iff]

theorem decodeOp_eq_none_iff : decodeOp f3 f7 rd rs1 rs2 = none ↔
    ¬ (f7 = 0b0000000#7 ∨ (f7 = 0b0100000#7 ∧ f3 ∈ [0b000#3, 0b101#3])) := by
  obtain rfl | rfl | rfl | rfl | rfl | rfl | rfl | rfl := funct3_cases f3 <;> simp [decodeOp, ite_eq_iff]

theorem decodeMiscmem_eq_none_iff : decodeMiscmem w = none ↔ funct3Of w ≠ 0b000#3 := by
  simp [decodeMiscmem]

theorem decodeSystem_eq_none_iff : decodeSystem w = none ↔ w ≠ 0x00000073#32 := by
  simp [decodeSystem]

end Decoders

/-! ## The decoder through the opcode class (R90 to R92) -/

section Classes

variable {op : BitVec 7} {c : OpClass} {w : Word} {i : Instr}

/-- The table of R81 is read in both directions. -/
theorem classOf_eq_some_iff : classOf op = some c ↔ op = c.opcode := by
  constructor
  · intro h
    unfold classOf at h
    repeat' split at h
    all_goals cases h <;> assumption
  · rintro rfl
    exact classOf_opcode c

/-- The opcode is examined first (R90, R91). -/
theorem decodeWord_eq_unknownOpcode_iff :
    decodeWord w = .error .unknownOpcode ↔ ∀ c : OpClass, opcodeOf w ≠ c.opcode := by
  constructor
  · intro h c hc
    simp only [decodeWord, hc, classOf_opcode] at h
    split at h <;> cases h
  · intro h
    have hnone : classOf (opcodeOf w) = none :=
      Option.eq_none_iff_forall_ne_some.mpr fun c hc => h c (classOf_eq_some_iff.mp hc)
    simp only [decodeWord, hnone]

theorem decodeWord_eq_illegalInstruction_iff (h : opcodeOf w = c.opcode) :
    decodeWord w = .error .illegalInstruction ↔ decodeIn c w = none := by
  cases hd : decodeIn c w <;> simp [decodeWord, h, hd]

theorem decodeWord_eq_ok_iff (h : opcodeOf w = c.opcode) : decodeWord w = .ok i ↔ decodeIn c w = some i := by
  cases hd : decodeIn c w <;> simp [decodeWord, h, hd]

theorem exists_opcode_of_decodeWord_ne (h : decodeWord w ≠ .error .unknownOpcode) :
    ∃ c : OpClass, opcodeOf w = c.opcode := by
  simpa [decodeWord_eq_unknownOpcode_iff] using h

/-- The operation a class selects puts every field of the word back in its place (R82 to R89). -/
theorem encode_of_decodeIn (hop : opcodeOf w = c.opcode) (h : decodeIn c w = some i) :
    i.wf = true ∧ encode i = w := by
  cases c
  case lui | auipc => cases h; exact ⟨rfl, encodeU_fields hop⟩
  case jal => cases h; exact ⟨jumpOffsetOk_append _, encodeJ_fields hop⟩
  case jalr => exact (encode_of_decodeJalr h).imp_right (·.trans (encodeI_fields hop))
  case branch =>
    exact (encode_of_decodeBranch h).imp (·.trans (branchOffsetOk_append _)) (·.trans (encodeB_fields hop))
  case load => exact (encode_of_decodeLoad h).imp_right (·.trans (encodeI_fields hop))
  case store => exact (encode_of_decodeStore h).imp_right (·.trans (encodeS_fields hop))
  case imm =>
    rw [decodeIn, immIField_eq_append] at h
    exact (encode_of_decodeImm h).imp_right (·.trans (encodeR_fields hop))
  case op => exact (encode_of_decodeOp h).imp_right (·.trans (encodeR_fields hop))
  case miscmem =>
    obtain ⟨hf3, rfl⟩ := decodeMiscmem_eq_some_iff.mp h
    refine ⟨rfl, ?_⟩
    rw [encode, BitVec.extractLsb'_append_extractLsb'_eq_extractLsb' (start₁ := 24) (len₁ := 4) rfl,
      BitVec.extractLsb'_append_extractLsb'_eq_extractLsb' (start₁ := 20) (len₁ := 4) rfl, ← hf3]
    exact encodeI_fields hop
  case system => obtain ⟨rfl, rfl⟩ := decodeSystem_eq_some_iff.mp h; exact ⟨rfl, rfl⟩

theorem encode_of_decodeWord (h : decodeWord w = .ok i) : i.wf = true ∧ encode i = w := by
  obtain ⟨c, hop⟩ := exists_opcode_of_decodeWord_ne (w := w) (by simp [h])
  exact encode_of_decodeIn hop ((decodeWord_eq_ok_iff hop).mp h)

end Classes
end Sys2Proof
end

section
/-! The words the decoder refuses, and what it answers on bytes: the lists of spec/30_encoding.md R91 and R92 against
the classes of R81 to R89; the little-endian word of R45 and R70. -/

namespace Sys2Proof.Claims

variable {w : Word}

/-- The opcodes of R81 are those of the 11 classes. -/
theorem mem_knownOpcodes_iff {op : BitVec 7} : op ∈ knownOpcodes ↔ ∃ c : OpClass, op = c.opcode := by
  constructor
  · intro h
    simp only [knownOpcodes, List.mem_cons, List.not_mem_nil, or_false] at h
    obtain rfl | rfl | rfl | rfl | rfl | rfl | rfl | rfl | rfl | rfl | rfl := h
    exacts [⟨.lui, rfl⟩, ⟨.auipc, rfl⟩, ⟨.jal, rfl⟩, ⟨.jalr, rfl⟩, ⟨.branch, rfl⟩, ⟨.load, rfl⟩, ⟨.store, rfl⟩,
      ⟨.imm, rfl⟩, ⟨.op, rfl⟩, ⟨.miscmem, rfl⟩, ⟨.system, rfl⟩]
  · rintro ⟨c, rfl⟩
    cases c <;> decide

/-- R92 lists no word whose opcode is unknown. -/
theorem IllegalWord.opcode_mem (h : IllegalWord w) : opcode w ∈ knownOpcodes := by
  obtain ⟨h, _⟩ | ⟨h, _⟩ | ⟨h, _⟩ | ⟨h, _⟩ | ⟨h, _⟩ | ⟨h, _⟩ | ⟨h, _⟩ | ⟨h, _⟩ | ⟨h, _⟩ := h <;> rw [h] <;> decide

/-- Among the words of one class, R92 lists those for which the class has no operation. -/
theorem illegalWord_iff_decodeIn {c : OpClass} (h : opcode w = c.opcode) : IllegalWord w ↔ decodeIn c w = none := by
  cases c <;> simp only [IllegalWord, h, OpClass.opcode, BitVec.reduceEq, false_and, true_and, false_or, or_false]
  case lui | auipc | jal => simp [decodeIn]
  case jalr => exact decodeJalr_eq_none_iff.symm
  case branch => exact decodeBranch_eq_none_iff.symm
  case load => exact decodeLoad_eq_none_iff.symm
  case store => exact decodeStore_eq_none_iff.symm
  case imm => exact decodeImm_eq_none_iff.symm
  case op => exact decodeOp_eq_none_iff.symm
  case miscmem => exact decodeMiscmem_eq_none_iff.symm
  case system => exact decodeSystem_eq_none_iff.symm

end Sys2Proof.Claims

namespace Sys2Proof

open Sys2Proof.Machine

/-- The first four bytes are the word (R45, R70). -/
theorem decodeBytes_bytesOfWord_append {v : Word} {i : Instr} (rest : List Byte) (h : decodeWord v = .ok i) :
    decodeBytes (bytesOfWord 4 v ++ rest) = .ok (i, rest) := by
  rw [← wordOfBytes_bytesOfWord v] at h
  simp only [bytesOfWord] at h
  simp only [bytesOfWord, List.cons_append, List.nil_append, decodeBytes, h]

theorem decodeBytes_of_length_lt {bs : List Byte} (h : bs.length < 4) : decodeBytes bs = .error .truncated := by
  match bs with
  | [] | [_] | [_, _] | [_, _, _] => rfl
  | _ :: _ :: _ :: _ :: _ => simp at h; omega

end Sys2Proof

namespace Sys2Proof.Proofs

open Sys2Proof.Claims

/-- Settles O13: the encoding carries its class's opcode, and the class's decoder reads back the fields of its
layout. -/
theorem decodeOfEncode : Obligations.DecodeOfEncode :=
  fun _ h => decodeWord_encode h

/-- Settles O14: the encoder puts every field of the decoded word back in its place. -/
theorem encodeOfDecode : Obligations.EncodeOfDecode :=
  fun _ _ h => encode_of_decodeWord h

/-- Settles O15: the four bytes are the encoded word, which decodes to the instruction. -/
theorem decodeOfEncodedBytes : Obligations.DecodeOfEncodedBytes :=
  ⟨fun _ rest h => decodeBytes_bytesOfWord_append rest (decodeWord_encode h), fun _ h => decodeBytes_of_length_lt h⟩

/-- Settles O16: the opcodes of R81 are those of the classes, and a word of a class is never reported as unknown. -/
theorem unknownOpcodeExactly : Obligations.UnknownOpcodeExactly := fun w => by
  rw [decodeWord_eq_unknownOpcode_iff, mem_knownOpcodes_iff, not_exists]; rfl

/-- Settles O17, class by class; a word of no class is on neither side. -/
theorem illegalWordsExactly : Obligations.IllegalWordsExactly := by
  intro w
  by_cases hw : opcode w ∈ knownOpcodes
  · obtain ⟨c, hc⟩ := mem_knownOpcodes_iff.mp hw
    exact (decodeWord_eq_illegalInstruction_iff hc).trans (illegalWord_iff_decodeIn hc).symm
  · have hunknown := (unknownOpcodeExactly w).mpr hw
    exact iff_of_false (by simp [hunknown]) (fun h => hw h.opcode_mem)

/-- Settles O18: ECALL has one encoding, and R92 lists every other word of its class. -/
theorem systemWordsOnlyEcall : Obligations.SystemWordsOnlyEcall := by
  refine ⟨fun w => ⟨fun h => (encode_of_decodeWord h).2.symm, ?_⟩, fun w hop hw => ?_⟩
  · rintro rfl
    exact decodeWord_encode (i := .ecall) rfl
  · exact (decodeWord_eq_illegalInstruction_iff (c := .system) hop).mpr (decodeSystem_eq_none_iff.mpr hw)

end Sys2Proof.Proofs
end

section
/-! The immediates of a word (spec/30_encoding.md R72 to R77): sign extension bit by bit and its range, then the five
immediates. -/

namespace Sys2Proof

/-! ## Sign extension (R13) -/

section SignExtension

variable {n : Nat} (x : BitVec n)

/-- Above the field stand copies of its highest bit. -/
theorem signExtend_getLsbD {k : Nat} (hk : k < 32) :
    (x.signExtend 32).getLsbD k = x.getLsbD (if k < n then k else n - 1) := by
  rw [BitVec.getLsbD_signExtend, BitVec.msb_eq_getLsbD_last, apply_ite x.getLsbD]
  simp [hk]

theorem signExtend_toInt_range (hn : n ≤ 32) :
    -2 ^ (n - 1) ≤ (x.signExtend 32).toInt ∧ (x.signExtend 32).toInt ≤ 2 ^ (n - 1) - 1 := by
  rw [BitVec.toInt_signExtend_of_le hn]
  exact ⟨x.le_toInt, BitVec.toInt_le⟩

/-- A field over one zero bit extends to the extended field shifted left by one (R74, R76): bit `k + 1` of either side
is bit `k` of the extended field. -/
theorem signExtend_append_zero (hn : 0 < n) : (x ++ 0#1).signExtend 32 = x.signExtend 32 <<< 1 := by
  apply BitVec.eq_of_getLsbD_eq
  intro k hk
  rw [signExtend_getLsbD _ hk, BitVec.getLsbD_shiftLeft, BitVec.getLsbD_append]
  cases k with
  | zero => simp
  | succ k =>
    rw [Nat.add_sub_cancel, signExtend_getLsbD x (by omega)]
    grind

/-- A field over one zero bit is twice the field's value, so its range ends at an even number (R74, R76). -/
theorem signExtend_append_zero_toInt_range (hn : 0 < n) (hn' : n < 32) :
    -2 ^ n ≤ ((x ++ 0#1).signExtend 32).toInt ∧ ((x ++ 0#1).signExtend 32).toInt ≤ 2 ^ n - 2 := by
  have heven : ((x ++ 0#1).signExtend 32).toInt = 2 * x.toInt := by
    rw [BitVec.toInt_signExtend_of_le hn', BitVec.toInt_append]
    simp [hn.ne']
  have hlo := x.le_two_mul_toInt
  have hhi := x.two_mul_toInt_lt
  obtain ⟨m, rfl⟩ : ∃ m, n = m + 1 := ⟨n - 1, by omega⟩
  rw [heven]
  omega

end SignExtension

/-! ## The five immediates (R72 to R76)

A bit of a concatenation of slices is a bit of the word; which one is arithmetic on its number. -/

section Immediates

variable (w : Word) {k : Nat}

theorem immI_getLsbD (hk : k < 32) : (fieldsOf w).immI.getLsbD k = w.getLsbD (if k < 12 then 20 + k else 31) := by
  simp only [fieldsOf, sext12, immIField, signExtend_getLsbD _ hk, BitVec.getLsbD_extractLsb']
  grind

theorem immS_getLsbD (hk : k < 32) :
    (fieldsOf w).immS.getLsbD k = w.getLsbD (if k < 5 then 7 + k else if k < 12 then 20 + k else 31) := by
  simp only [fieldsOf, sext12, immSField, signExtend_getLsbD _ hk, BitVec.getLsbD_append, BitVec.getLsbD_extractLsb']
  grind

theorem immB_getLsbD (hk : k < 32) : (fieldsOf w).immB.getLsbD k =
    if k = 0 then false
    else w.getLsbD (if k < 5 then 7 + k else if k < 11 then 20 + k else if k = 11 then 7 else 31) := by
  simp only [fieldsOf, sext13, immBField, signExtend_getLsbD _ hk, BitVec.getLsbD_append, BitVec.getLsbD_extractLsb']
  grind

theorem immU_getLsbD (hk : k < 32) : (fieldsOf w).immU.getLsbD k = if k < 12 then false else w.getLsbD k := by
  simp only [fieldsOf, upper20, immUField, BitVec.getLsbD_append, BitVec.getLsbD_extractLsb']
  grind

theorem immJ_getLsbD (hk : k < 32) : (fieldsOf w).immJ.getLsbD k =
    if k = 0 then false
    else w.getLsbD (if k < 11 then 20 + k else if k = 11 then 20 else if k < 20 then k else 31) := by
  simp only [fieldsOf, sext21, immJField, signExtend_getLsbD _ hk, BitVec.getLsbD_append, BitVec.getLsbD_extractLsb']
  grind

/-- immU is the word with its low 12 bits cleared (R75). -/
theorem immU_eq_and : (fieldsOf w).immU = w &&& 0xFFFFF000#32 := by
  have mask : ∀ k < 32, (0xFFFFF000#32).getLsbD k = decide (12 ≤ k) := by decide
  apply BitVec.eq_of_getLsbD_eq
  intro k hk
  rw [immU_getLsbD w hk, BitVec.getLsbD_and, mask k hk]
  by_cases h : k < 12 <;> simp [h, Nat.not_lt.mp]

end Immediates

end Sys2Proof

namespace Sys2Proof.Proofs

/-- Settles O19: each immediate is a field of the word, extended or shifted as its rule says. -/
theorem immediatesBitByBit : Obligations.ImmediatesBitByBit := fun w =>
  ⟨fun _ hk => immI_getLsbD w hk, fun _ hk => immS_getLsbD w hk, fun _ hk => immB_getLsbD w hk,
    fun _ hk => immU_getLsbD w hk, fun _ hk => immJ_getLsbD w hk,
    signExtend_append_zero _ (by decide), signExtend_append_zero _ (by decide), immU_eq_and w,
    signExtend_toInt_range (immIField w) (by decide), signExtend_toInt_range (immSField w) (by decide),
    signExtend_append_zero_toInt_range _ (by decide) (by decide),
    signExtend_append_zero_toInt_range _ (by decide) (by decide)⟩

end Sys2Proof.Proofs
end

section
/-! The operands of a decoded instruction are fields of its word, which is the instruction's encoding
(spec/30_encoding.md R71, R78 to R87). -/

namespace Sys2Proof.Claims

variable {i : Instr}

theorem dest_encode {rd : RegIdx} (h : i.dest = some rd) : rd = rdOf (encode i) := by
  cases i
  case lui | auipc => cases h; exact (rdOf_encodeU ..).symm
  case jal => cases h; exact (rdOf_encodeJ ..).symm
  case slli | srli | srai | add | sub | sll | slt | sltu | xor | srl | sra | or | and =>
    cases h; exact (rdOf_encodeR ..).symm
  case jalr | lb | lh | lw | lbu | lhu | addi | slti | sltiu | xori | ori | andi =>
    cases h; exact (rdOf_encodeI ..).symm
  all_goals cases h

theorem sourceOne_encode {rs1 : RegIdx} (h : sourceOne i = some rs1) : rs1 = rs1Of (encode i) := by
  cases i
  case beq | bne | blt | bge | bltu | bgeu => cases h; exact (rs1Of_encodeB ..).symm
  case sb | sh | sw => cases h; exact (rs1Of_encodeS ..).symm
  case slli | srli | srai | add | sub | sll | slt | sltu | xor | srl | sra | or | and =>
    cases h; exact (rs1Of_encodeR ..).symm
  case jalr | lb | lh | lw | lbu | lhu | addi | slti | sltiu | xori | ori | andi =>
    cases h; exact (rs1Of_encodeI ..).symm
  all_goals cases h

theorem sourceTwo_encode {rs2 : RegIdx} (h : sourceTwo i = some rs2) : rs2 = rs2Of (encode i) := by
  cases i
  case beq | bne | blt | bge | bltu | bgeu => cases h; exact (rs2Of_encodeB ..).symm
  case sb | sh | sw => cases h; exact (rs2Of_encodeS ..).symm
  case add | sub | sll | slt | sltu | xor | srl | sra | or | and => cases h; exact (rs2Of_encodeR ..).symm
  all_goals cases h

/-- The base of a data access is rs1 (R79). -/
theorem sourceOne_of_access {rs1 : RegIdx} {imm : BitVec 12} {n : Nat} (h : i.access = some (rs1, imm, n)) :
    sourceOne i = some rs1 := by
  cases i
  case lb | lh | lw | lbu | lhu | sb | sh | sw => cases h; rfl
  all_goals cases h

/-- The width is coded in the low two bits of funct3 (R83, R84). -/
theorem wordWidth_eq (w : Word) : wordWidth w = 2 ^ ((funct3Of w).extractLsb' 0 2).toNat := by
  rw [wordWidth, extractLsb'_of_field (rfl : _ = funct3Of w) 0 2 (by decide)]

/-- The width of a data access is the one its word gives (R83, R84). -/
theorem wordWidth_encode {rs1 : RegIdx} {imm : BitVec 12} {n : Nat} (h : i.access = some (rs1, imm, n)) :
    n = wordWidth (encode i) := by
  rw [wordWidth_eq]
  cases i
  case lb | lh | lw | lbu | lhu => cases h; rw [encode, funct3Of_encodeI]; rfl
  case sb | sh | sw => cases h; rw [encode, funct3Of_encodeS]; rfl
  all_goals cases h

/-- The immediate of a well-formed instruction is the one of the five its class takes (R78). -/
theorem immediateOf_encode {v : Word} (hwf : i.wf = true) (h : immediateOf i = some v) :
    classImmediate (fieldsOf (encode i)) i.opClass = some v := by
  cases i
  case lui | auipc => cases h; exact congrArg (some ∘ upper20) (immUField_encodeU ..)
  case jal => cases h; exact congrArg (some ∘ sext21) (immJField_encodeJ _ _ hwf)
  case beq | bne | blt | bge | bltu | bgeu => cases h; exact congrArg (some ∘ sext13) (immBField_encodeB _ _ _ _ hwf)
  case sb | sh | sw => cases h; exact congrArg (some ∘ sext12) (immSField_encodeS ..)
  case jalr | lb | lh | lw | lbu | lhu | addi | slti | sltiu | xori | ori | andi =>
    cases h; exact congrArg (some ∘ sext12) (immIField_encodeI ..)
  all_goals cases h

end Sys2Proof.Claims

namespace Sys2Proof.Proofs

open Sys2Proof.Claims

/-- Settles O20: the word is the instruction's encoding, whose layout has each operand in its field; FENCE's are the
fields its decoder keeps. -/
theorem operandsComeFromTheWord : Obligations.OperandsComeFromTheWord := by
  intro w i h
  obtain ⟨hwf, rfl⟩ := encode_of_decodeWord h
  refine ⟨(opcodeOf_encode i).symm, fun _ => dest_encode, fun _ => sourceOne_encode, fun _ => sourceTwo_encode,
    fun _ _ _ ha => ⟨sourceOne_encode (sourceOne_of_access ha), wordWidth_encode ha⟩,
    fun _ => immediateOf_encode hwf, ?_, ?_⟩
  · rintro rd rs1 shamt (rfl | rfl | rfl) <;> exact ⟨(rs1Of_encodeR ..).symm, (rs2Of_encodeR ..).symm⟩
  · rintro fm pred succ rs1 rd rfl
    have hfence := (decodeWord_eq_ok_iff (opcodeOf_encode _)).mp h
    obtain ⟨_, hfields⟩ := decodeMiscmem_eq_some_iff.mp hfence
    injection hfields with hfm hpred hsucc hrs1 hrd
    exact ⟨hfm.symm, hpred.symm, hsucc.symm, hrs1.symm, hrd.symm⟩

end Sys2Proof.Proofs
end

section
/-! Words laid out field by field (spec/30_encoding.md R78, R81 to R89): each is the encoding of the instruction it
decodes to. -/

namespace Sys2Proof

/-- A word decodes to the well-formed instruction whose encoding it is. -/
theorem decodeWord_of_encode_eq {w : Word} {i : Instr} (he : encode i = w) (hwf : i.wf = true) :
    decodeWord w = .ok i :=
  he ▸ decodeWord_encode hwf

/-- In a B word two fields stand where R has rd (R78). -/
theorem encodeB_append_fields (b31 b7 : BitVec 1) (b30_25 : BitVec 6) (b11_8 : BitVec 4) (rs2 rs1 : RegIdx)
    (f3 : BitVec 3) (c : OpClass) : encodeB (b31 ++ b7 ++ b30_25 ++ b11_8 ++ 0#1) rs2 rs1 f3 c =
      b31 ++ b30_25 ++ rs2 ++ rs1 ++ f3 ++ b11_8 ++ b7 ++ c.opcode := by
  have assoc (x : BitVec 20) : x ++ (b11_8 ++ b7) = x ++ b11_8 ++ b7 := BitVec.append_assoc.symm
  rw [encodeB_append, encodeR, assoc]

end Sys2Proof

namespace Sys2Proof.Proofs

/-- Settles O21: each word is laid out as the encoder lays out the instruction; B and J put the bits of the offset in
their places. -/
theorem jumpBranchMemoryLayouts : Obligations.JumpBranchMemoryLayouts := by
  intro rd rs1 rs2 u imm hi lo b31 b7 b20 b30_25 b11_8 b30_21 b19_12
  refine ⟨decodeWord_of_encode_eq rfl rfl, decodeWord_of_encode_eq rfl rfl,
    decodeWord_of_encode_eq (encodeJ_append ..) (jumpOffsetOk_append _), decodeWord_of_encode_eq rfl rfl,
    ?beq, ?bne, ?blt, ?bge, ?bltu, ?bgeu, ?lb, ?lh, ?lw, ?lbu, ?lhu, ?sb, ?sh, ?sw⟩
  case beq | bne | blt | bge | bltu | bgeu =>
    exact decodeWord_of_encode_eq (encodeB_append_fields ..) (branchOffsetOk_append _)
  case lb | lh | lw | lbu | lhu => exact decodeWord_of_encode_eq rfl rfl
  case sb | sh | sw => exact decodeWord_of_encode_eq (encodeS_append ..) rfl

/-- Settles O22: each word is the encoder's concatenation for the instruction. -/
theorem arithmeticSystemLayouts : Obligations.ArithmeticSystemLayouts := by
  intro rd rs1 rs2 shamt imm fm pred succ
  and_intros <;> exact decodeWord_of_encode_eq rfl rfl

/-- Settles O23: each word is computed as the encoding of its instruction. -/
theorem exampleWordsDecode : Obligations.ExampleWordsDecode := by
  and_intros <;> exact decodeWord_of_encode_eq rfl rfl

end Sys2Proof.Proofs
end

section
/-! An ALU, LUI or AUIPC instruction computes a value and retires it; with x0 as its destination nothing is written
(spec/30_encoding.md R94, spec/40_datapath.md R114, R116). -/

namespace Sys2Proof.Machine

/-- A LUI, AUIPC, IMM or OP instruction retires one value to its destination. -/
theorem exec_eq_retire {i : Instr} {rd : RegIdx} (s : State) (hc : i.opClass ∈ [OpClass.lui, .auipc, .imm, .op])
    (hd : i.dest = some rd) : ∃ v, exec i s = retire s rd v := by
  cases i
  case jal | jalr | lb | lh | lw | lbu | lhu => simp [Instr.opClass] at hc
  case beq | bne | blt | bge | bltu | bgeu | sb | sh | sw | fence | ecall => cases hd
  all_goals cases hd; exact ⟨_, rfl⟩

/-- A write-back to x0 is discarded (R21). -/
theorem retire_zero (s : State) (v : Word) : retire s 0#5 v = .next { s with pc := s.pc + 4#32 } := by
  rw [retire, State.writeReg_zero]; rfl

end Sys2Proof.Machine

namespace Sys2Proof.Proofs

open Sys2Proof.Machine

/-- Settles O24: the instruction retires its value to x0, which discards it; the NOP is the encoding of
ADDI x0, x0, 0. -/
theorem hintsOnlyAdvance : Obligations.HintsOnlyAdvance := by
  refine ⟨fun i s hc hd => ?_, decodeWord_of_encode_eq rfl rfl⟩
  obtain ⟨v, h⟩ := exec_eq_retire s hc hd
  rw [h, retire_zero]

end Sys2Proof.Proofs
end

section
/-! The cycle: every step has a next state, the running core executes the instruction at pc, and a halted core stays as it
is, under the interface's run and under an instruction limit (spec/40_datapath.md R118, R119, R125, R128). -/

namespace Sys2Proof.Machine

variable {s : State}

theorem load_answers_next (s : State) (n : AccessWidth) (ext : Word → Word) (rd : RegIdx) (ea : Word) :
    ∃ t, load s n ext rd ea = .next t := by
  obtain ⟨_, e⟩ | ⟨_, e⟩ := load_cases s n ext rd ea <;> exact ⟨_, e⟩

theorem store_answers_next (s : State) (n : AccessWidth) (ea v : Word) : ∃ t, store s n ea v = .next t := by
  obtain ⟨_, e⟩ | ⟨_, e⟩ := store_cases s n ea v <;> exact ⟨_, e⟩

/-- Loads and stores answer a next state in bounds and out of bounds; every other meaning is written as one. -/
theorem exec_answers_next (i : Instr) (s : State) : ∃ t, exec i s = .next t := by
  cases i
  case lb | lh | lw | lbu | lhu => exact load_answers_next ..
  case sb | sh | sw => exact store_answers_next ..
  all_goals exact ⟨_, rfl⟩

theorem step_answers_next (s : State) : ∃ t, step s = .next t := by
  obtain ⟨_, _, e⟩ | ⟨_, _, _, e⟩ | ⟨i, _, _, e⟩ := step_cases s
  · exact ⟨_, e⟩
  · exact ⟨_, e⟩
  · exact e ▸ exec_answers_next i s

theorem cycle_of_step {t : State} (h : step s = .next t) : cycle s = t := by
  simp only [cycle, h]

/-- As every step has a next state, `cycle` is the step. -/
theorem step_eq_next_cycle (s : State) : step s = .next (cycle s) := by
  obtain ⟨t, h⟩ := step_answers_next s
  rw [h, cycle_of_step h]

theorem cycle_of_halted {o : RunOutcome} (h : s.run = .halted o) : cycle s = s :=
  cycle_of_step (step_of_halted h)

/-- A fetch in bounds answers the word at that address (R45). -/
theorem fetchWord_eq_wordAt {a : Word} (hb : inBounds a 4 = true) : fetchWord s.mem a = .ok (Claims.wordAt s a) := by
  rw [← wordOfBytes_readBytes_eq_wordAt]
  exact memRead_of_inBounds (n := .word) hb

/-! ### Runs -/

theorem run_succ (n : Nat) (s : State) : core.run (n + 1) s = core.run n (cycle s) := by
  have h : core.step s = .next (cycle s) := step_eq_next_cycle s
  simp only [Host.Core.run, h]

theorem run_of_halted {o : RunOutcome} (h : s.run = .halted o) (n : Nat) : core.run n s = .next s := by
  induction n with
  | zero => rfl
  | succ n ih => rw [run_succ, cycle_of_halted h, ih]

theorem runLimited_succ_of_halted {o : RunOutcome} (h : (cycle s).run = .halted o) (n : Nat) :
    runLimited (n + 1) s = cycle s := by
  simp only [runLimited, stepPort, replyOf, h]

theorem runLimited_succ_of_running (h : (cycle s).run = .running) (n : Nat) :
    runLimited (n + 1) s = runLimited n (cycle s) := by
  simp only [runLimited, stepPort, replyOf, h]

theorem runLimited_of_halted {o : RunOutcome} (h : s.run = .halted o) (n : Nat) : runLimited n s = s := by
  cases n with
  | zero => rfl
  | succ n =>
    have hc : cycle s = s := cycle_of_halted h
    rw [runLimited_succ_of_halted (hc.symm ▸ h), hc]

/-- Stopping at HALTED is the same as stepping on, for the halted core stays as it is (R118, R125). -/
theorem runLimited_succ (n : Nat) (s : State) : runLimited (n + 1) s = runLimited n (cycle s) := by
  cases h : (cycle s).run with
  | running => exact runLimited_succ_of_running h n
  | halted o => rw [runLimited_succ_of_halted h, runLimited_of_halted h]

theorem run_eq_next_runLimited (n : Nat) (s : State) : core.run n s = .next (runLimited n s) := by
  induction n generalizing s with
  | zero => rfl
  | succ n ih => rw [run_succ, runLimited_succ, ih]

/-- A limit of `n + k` is a limit of `n`, then one of `k`. -/
theorem runLimited_add (n k : Nat) (s : State) : runLimited (n + k) s = runLimited k (runLimited n s) := by
  induction n generalizing s with
  | zero => rw [Nat.zero_add, runLimited]
  | succ n ih => rw [Nat.succ_add, runLimited_succ, runLimited_succ, ih]

theorem exists_halted_of_run_ne_running (h : s.run ≠ .running) : ∃ o, s.run = .halted o := by
  cases hr : s.run with
  | running => exact absurd hr h
  | halted o => exact ⟨o, rfl⟩

/-! ### Ports -/

theorem replyOf_eq_continueRun_iff : replyOf s = .continueRun ↔ s.run = .running := by
  cases h : s.run <;> simp [replyOf, h]

theorem replyOf_eq_halted_iff {o : RunOutcome} : replyOf s = .halted o ↔ s.run = .halted o := by
  cases h : s.run <;> simp [replyOf, h]

theorem statusPort_fst_eq_false_iff : (statusPort s).1 = false ↔ s.run = .running := by
  cases h : s.run <;> simp [statusPort, h]

theorem statusPort_snd_eq_some_iff {o : RunOutcome} : (statusPort s).2 = some o ↔ s.run = .halted o := by
  cases h : s.run <;> simp [statusPort, h]

end Sys2Proof.Machine

namespace Sys2Proof.Proofs

open Sys2Proof.Machine

/-- Settles O26: an error and ECALL are next states, and no arm of `exec` refuses. -/
theorem everyStepAnswersNext : Obligations.EveryStepAnswersNext :=
  ⟨step_answers_next, exec_answers_next⟩

/-- Settles O27, by induction on the number of steps: a halted core steps to itself. -/
theorem haltedIsFinal : Obligations.HaltedIsFinal :=
  fun _ _ n h => ⟨run_of_halted h n, runLimited_of_halted h n⟩

/-- Settles O50: the two runs take the same cycle at every step, and an ended run stays in its last state. -/
theorem limitedRunsAgree : Obligations.LimitedRunsAgree := by
  refine ⟨run_eq_next_runLimited, fun n k s h => ?_⟩
  obtain ⟨o, ho⟩ := exists_halted_of_run_ne_running h
  rw [runLimited_add, runLimited_of_halted ho]

/-- Settles O25: in bounds the fetch answers the word at pc, and the cycle executes what it decodes to. -/
theorem stepRunsTheDecodedInstruction : Obligations.StepRunsTheDecodedInstruction :=
  fun _ _ hrun hb hd => step_of_fetchWord hrun (fetchWord_eq_wordAt hb) hd

/-- Settles O51: the step port's state is the step's, and both ports read the run state. -/
theorem portsReportTheRunState : Obligations.PortsReportTheRunState :=
  fun s => ⟨step_eq_next_cycle s, replyOf_eq_continueRun_iff, fun _ => replyOf_eq_halted_iff,
    statusPort_fst_eq_false_iff, fun _ => statusPort_snd_eq_some_iff⟩

end Sys2Proof.Proofs
end

section
/-! The frame of an instruction: which memory bytes it can change and where it leaves pc (spec/40_datapath.md R113, R116,
R117, R120); its register frame is `exec_readReg_of_ne_dest`. -/

namespace Sys2Proof.Machine

variable {s t : State}

/-- A load keeps memory (R170). -/
theorem load_mem_eq {n : AccessWidth} {ext : Word → Word} {rd : RegIdx} {ea : Word}
    (h : load s n ext rd ea = .next t) : t.mem = s.mem := by
  obtain ⟨_, e⟩ | ⟨_, e⟩ := load_cases s n ext rd ea <;> cases e.symm.trans h <;> rfl

theorem exec_mem_eq_of_ne_store {i : Instr} (hc : i.opClass ≠ .store) (h : exec i s = .next t) : t.mem = s.mem := by
  cases i
  case lb | lh | lw | lbu | lhu => exact load_mem_eq h
  case sb | sh | sw => exact absurd rfl hc
  all_goals cases h; rfl

/-- A store changes no byte outside its own, and none at all out of bounds (R47, R176). -/
theorem store_readByte_outside {n : AccessWidth} {ea v : Word} {a : Nat} (hm : s.mem.wf = true)
    (ha : a < ea.toNat ∨ ea.toNat + n.bytes ≤ a) (h : store s n ea v = .next t) :
    t.mem.readByte a = s.mem.readByte a := by
  obtain ⟨_, e⟩ | ⟨hb, e⟩ := store_cases s n ea v <;> cases e.symm.trans h
  · rfl
  · obtain ⟨_, hframe⟩ := Claims.bytesWritten_writeBytes (v := v) hb hm
    exact hframe a ha

/-- A store changes no byte outside its own; any other instruction with a data access is a load, which keeps memory. -/
theorem exec_readByte_outside {i : Instr} {rs1 : RegIdx} {imm : BitVec 12} {n a : Nat} (hm : s.mem.wf = true)
    (hi : i.access = some (rs1, imm, n))
    (ha : a < (effectiveAddress s rs1 imm).toNat ∨ (effectiveAddress s rs1 imm).toNat + n ≤ a)
    (h : exec i s = .next t) : t.mem.readByte a = s.mem.readByte a := by
  cases i
  case sb | sh | sw => cases hi; exact store_readByte_outside hm ha h
  case lb | lh | lw | lbu | lhu => rw [load_mem_eq h]
  all_goals cases hi

/-- A load that goes on moves pc by 4 (R116). -/
theorem load_pc_eq_nextPc {n : AccessWidth} {ext : Word → Word} {rd : RegIdx} {ea : Word} (hrun : t.run = .running)
    (h : load s n ext rd ea = .next t) : t.pc = s.nextPc := by
  obtain ⟨_, e⟩ | ⟨_, e⟩ := load_cases s n ext rd ea <;> cases e.symm.trans h
  · cases hrun
  · rfl

/-- A store that goes on moves pc by 4 (R116). -/
theorem store_pc_eq_nextPc {n : AccessWidth} {ea v : Word} (hrun : t.run = .running)
    (h : store s n ea v = .next t) : t.pc = s.nextPc := by
  obtain ⟨_, e⟩ | ⟨_, e⟩ := store_cases s n ea v <;> cases e.symm.trans h
  · cases hrun
  · rfl

/-- Any instruction but a branch or jump that goes on moves pc by 4 (R116); ECALL does not go on. -/
theorem exec_pc_eq_nextPc {i : Instr} (hc : i.opClass ∉ [OpClass.branch, .jal, .jalr]) (hrun : t.run = .running)
    (h : exec i s = .next t) : t.pc = s.nextPc := by
  cases i
  case beq | bne | blt | bge | bltu | bgeu | jal | jalr => simp [Instr.opClass] at hc
  case lb | lh | lw | lbu | lhu => exact load_pc_eq_nextPc hrun h
  case sb | sh | sw => exact store_pc_eq_nextPc hrun h
  case ecall => cases h; cases hrun
  all_goals cases h; rfl

/-- Only the halt changes the run state, and it leaves pc (R117). -/
theorem Shape.pc_eq_of_run_ne (h : Shape s t) (hne : t.run ≠ s.run) : t.pc = s.pc := by
  cases h with
  | wrote | went | stored => exact absurd rfl hne
  | stopped => rfl

end Sys2Proof.Machine

namespace Sys2Proof.Proofs

open Sys2Proof.Machine

/-- Settles O31: the register frame of `exec`, instruction by instruction. -/
theorem onlyTheDestinationIsWritten : Obligations.OnlyTheDestinationIsWritten :=
  fun _ _ _ h _ hr => exec_readReg_of_ne_dest hr h

/-- Settles O33: no instruction but a store touches memory, and a store writes its own bytes or none. -/
theorem onlyStoresChangeMemory : Obligations.OnlyStoresChangeMemory :=
  fun _ _ _ hm h => ⟨fun hc a => congrArg (·.readByte a) (exec_mem_eq_of_ne_store hc h),
    fun _ _ _ hi _ ha => exec_readByte_outside hm hi ha h⟩

/-- Settles O34: the instructions that go on advance or jump, and a halt keeps pc. -/
theorem nextPcRule : Obligations.NextPcRule :=
  fun _ _ _ hs h => ⟨fun hrun hc => exec_pc_eq_nextPc hc hrun h,
    fun hend => (exec_shape h).pc_eq_of_run_ne (hs.symm ▸ hend)⟩

end Sys2Proof.Proofs
end

section
/-! Write-back: `retire` writes its value to the destination, moves pc by 4 and changes nothing else; so do LUI and
AUIPC, whose meanings are written with it (spec/40_datapath.md R114, R116, spec/41_upper_immediate.md R140, R141). -/

namespace Sys2Proof.Claims

open Sys2Proof.Machine

/-- An instruction that retires a value writes it to its destination and moves pc by 4 (R114, R116). -/
theorem writes_of_retire {i : Instr} {s : State} {rd : RegIdx} {v : Word} (h : exec i s = retire s rd v) :
    Writes i s rd v (s.pc + 4#32) :=
  ⟨_, h, fun _ => State.readReg_writeReg .., rfl, fun _ => rfl, rfl, rfl⟩

end Sys2Proof.Claims

namespace Sys2Proof.Proofs

open Sys2Proof.Claims

/-- Settles O1: LUI retires the immediate over 12 zero bits, AUIPC its sum with pc. -/
theorem upperImmediateResults : Obligations.UpperImmediateResults :=
  fun _ _ _ => ⟨writes_of_retire rfl, writes_of_retire rfl⟩

end Sys2Proof.Proofs
end

section
/-! Jumps: `jump` writes the link pc + 4, goes to its target and changes nothing else; JAL and JALR are written with it
(spec/40_datapath.md R114, R116, spec/42_jumps.md R150, R151). JALR's target is masked bit by bit, and its other funct3
values are illegal (R89, the spec's decision D11). -/

namespace Sys2Proof.Claims

open Sys2Proof.Machine

/-- An instruction that jumps writes the link pc + 4 to its destination and goes to its target (R114, R116). -/
theorem writes_of_jump {i : Instr} {s : State} {rd : RegIdx} {target : Word} (h : exec i s = jump s rd target) :
    Writes i s rd (s.pc + 4#32) target :=
  ⟨_, h, fun _ => State.readReg_writeReg .., rfl, fun _ => rfl, rfl, rfl⟩

/-- JALR's mask, bit by bit (R151). -/
theorem and_jalrMask_getLsbD (v : Word) (k : Nat) :
    (v &&& 0xFFFFFFFE#32).getLsbD k = (v.getLsbD k && decide (0 < k)) := by
  have mask : ∀ k < 32, (0xFFFFFFFE#32).getLsbD k = decide (0 < k) := by decide
  by_cases hk : k < 32
  · rw [BitVec.getLsbD_and, mask k hk]
  · have hv : v.getLsbD k = false := BitVec.getLsbD_of_ge v k (Nat.not_lt.mp hk)
    rw [BitVec.getLsbD_and, hv, Bool.false_and, Bool.false_and]

/-- A JALR word has an operation for funct3 = 000 alone (R89, R92). -/
theorem decodeWord_jalr_illegal {w : Word} (hop : opcode w = OpClass.jalr.opcode) (hf : funct3 w ≠ 0b000#3) :
    decodeWord w = .error .illegalInstruction :=
  (decodeWord_eq_illegalInstruction_iff hop).mpr (decodeJalr_eq_none_iff.mpr hf)

end Sys2Proof.Claims

namespace Sys2Proof.Proofs

open Sys2Proof.Claims

/-- Settles O2: JAL jumps to the sum of pc and its offset. -/
theorem jalResult : Obligations.JalResult :=
  fun _ _ _ => writes_of_jump rfl

/-- Settles O3: JALR jumps to the masked sum, computed in the state before the link is written; the mask, bit by bit;
and the class's decoder. -/
theorem jalrResult : Obligations.JalrResult := by
  refine ⟨fun _ _ _ _ => writes_of_jump rfl, fun v => ⟨?_, fun k hk => ?_⟩, fun _ hop hf => ?_⟩
  · rw [and_jalrMask_getLsbD, decide_eq_false (Nat.lt_irrefl 0), Bool.and_false]
  · rw [and_jalrMask_getLsbD, decide_eq_true hk, Bool.and_true]
  · exact decodeWord_jalr_illegal hop hf

end Sys2Proof.Proofs
end

section
/-! Branches: `branch` goes to the target or to pc + 4 and changes nothing else; each branch's meaning is one comparison of
two registers, or its negation, put to `branch` (spec/43_branches.md R160 to R166). -/

namespace Sys2Proof.Machine

variable {a b : Word}

@[simp] theorem isEq_iff : isEq a b = true ↔ a = b := beq_iff_eq

@[simp] theorem isLtSigned_iff : isLtSigned a b = true ↔ a.toInt < b.toInt := BitVec.slt_iff_toInt_lt

@[simp] theorem isLtUnsigned_iff : isLtUnsigned a b = true ↔ a.toNat < b.toNat := BitVec.ult_iff_lt

end Sys2Proof.Machine

namespace Sys2Proof.Claims

open Sys2Proof.Machine

variable {i : Instr} {s : State} {c : Bool} {p : Prop} [Decidable p] {offset : Word}

/-- A branch whose condition computes `p` goes to pc + offset if `p` holds and to pc + 4 otherwise (R160). -/
theorem goes_of_branch (hc : c = true ↔ p) (h : exec i s = branch s c offset) :
    Goes i s (if p then s.pc + offset else s.pc + 4#32) :=
  ⟨_, h, fun _ => rfl, if_congr hc rfl rfl, fun _ => rfl, rfl, rfl⟩

/-- A branch on the negation of `c` has its two ways exchanged. -/
theorem goes_of_branch_not (hc : c = true ↔ p) (h : exec i s = branch s (!c) offset) :
    Goes i s (if p then s.pc + 4#32 else s.pc + offset) := by
  have hnot : (!c) = true ↔ ¬ p := by rw [← hc, Bool.not_eq_true', Bool.not_eq_true]
  rw [← ite_not]
  exact goes_of_branch hnot h

end Sys2Proof.Claims

namespace Sys2Proof.Proofs

open Sys2Proof.Machine Sys2Proof.Claims

/-- Settles O4: BNE, BGE and BGEU branch on the negations of the comparisons BEQ, BLT and BLTU branch on. -/
theorem branchResults : Obligations.BranchResults :=
  fun _ _ _ _ => ⟨goes_of_branch isEq_iff rfl, goes_of_branch_not isEq_iff rfl,
    goes_of_branch isLtSigned_iff rfl, goes_of_branch_not isLtSigned_iff rfl,
    goes_of_branch isLtUnsigned_iff rfl, goes_of_branch_not isLtUnsigned_iff rfl⟩

end Sys2Proof.Proofs
end

section
/-! Loads and stores: a load writes the extended value of the bytes it reads, a store leaves the low bytes of its
operand in memory, and both stop the run out of bounds; a load of what a store of the same width wrote answers its low
bytes (spec/44_loads_stores.md R170 to R180). -/

namespace Sys2Proof.Machine

variable {s t : State} {n : AccessWidth} {ea v : Word}

/-- The low `k` bits of a zero-extended `k`-bit value are that value (R13). -/
theorem extractLsb'_setWidth_word {k : Nat} (x : BitVec k) (hk : k ≤ 32) : (x.setWidth 32).extractLsb' 0 k = x := by
  rw [← BitVec.setWidth_eq_extractLsb' hk, BitVec.setWidth_setWidth_of_le x hk, BitVec.setWidth_eq]

theorem sextByte_setWidth (x : BitVec 8) : sextByte (x.setWidth 32) = x.signExtend 32 := by
  rw [sextByte, extractLsb'_setWidth_word x (by decide)]

theorem sextHalf_setWidth (x : BitVec 16) : sextHalf (x.setWidth 32) = x.signExtend 32 := by
  rw [sextHalf, extractLsb'_setWidth_word x (by decide)]

theorem zextByte_setWidth (x : BitVec 8) : zextByte (x.setWidth 32) = x.setWidth 32 := by
  rw [zextByte, extractLsb'_setWidth_word x (by decide)]

theorem zextHalf_setWidth (x : BitVec 16) : zextHalf (x.setWidth 32) = x.setWidth 32 := by
  rw [zextHalf, extractLsb'_setWidth_word x (by decide)]

/-- A load that can read retires the extended value (R170). -/
theorem load_of_memRead (ext : Word → Word) (rd : RegIdx) (hr : memRead s.mem ea n = .ok v) :
    load s n ext rd ea = retire s rd (ext v) := by
  simp only [load, hr]

/-- A store out of bounds raises OutOfBounds (R176). -/
theorem store_of_outOfBounds (v : Word) (hb : inBounds ea n.bytes = false) :
    store s n ea v = .next (s.raise .outOfBounds) := by
  simp only [store, memWrite_of_outOfBounds v hb]

/-- After a store in bounds, a read of the same width at the same address answers the low bytes of what was stored,
zero-extended (R180). -/
theorem memRead_of_store (hm : s.mem.wf = true) (hb : inBounds ea n.bytes = true) (h : store s n ea v = .next t) :
    memRead t.mem ea n = .ok ((v.extractLsb' 0 (8 * n.bytes)).setWidth 32) := by
  cases (store_of_inBounds v hb).symm.trans h
  have hread := (Claims.bytesWritten_writeBytes (v := v) hb hm).memRead (d := 0) hb (Nat.zero_add _).le
  rwa [BitVec.add_zero] at hread

/-- A store leaves the effective address of a later access with the same base register and offset (R176). -/
theorem effectiveAddress_of_store (rs1 : RegIdx) (imm : BitVec 12) (h : store s n ea v = .next t) :
    effectiveAddress t rs1 imm = effectiveAddress s rs1 imm := by
  rw [effectiveAddress, effectiveAddress, store_readReg rs1 h]

end Sys2Proof.Machine

namespace Sys2Proof.Claims

open Sys2Proof.Machine

variable {i : Instr} {s t : State} {n : AccessWidth} {ext : Word → Word} {rd : RegIdx} {ea v w : Word}

/-- A load that can read writes the extended value to its destination and moves pc by 4 (R170). -/
theorem writes_of_load (h : exec i s = load s n ext rd ea) (hr : memRead s.mem ea n = .ok v) (hw : ext v = w) :
    Writes i s rd w (s.pc + 4#32) :=
  writes_of_retire (hw ▸ h.trans (load_of_memRead ext rd hr))

theorem stops_of_load (h : exec i s = load s n ext rd ea) (hb : inBounds ea n.bytes = false) :
    Stops i s (.error .outOfBounds) :=
  h.trans (load_out_of_bounds ext rd hb)

/-- A store in bounds writes the low bytes of its operand, moves pc by 4 and changes nothing else (R176). -/
theorem stores_of_store (h : exec i s = store s n ea v) (hm : s.mem.wf = true) (hb : inBounds ea n.bytes = true) :
    Stores i s ea n.bytes v :=
  ⟨_, h.trans (store_of_inBounds v hb), fun _ => rfl, rfl, bytesWritten_writeBytes hb hm, rfl, rfl⟩

theorem stops_of_store (h : exec i s = store s n ea v) (hb : inBounds ea n.bytes = false) :
    Stops i s (.error .outOfBounds) :=
  h.trans (store_of_outOfBounds v hb)

/-- A load with the base register, offset and width of the store before it writes the extended low bytes of what was
stored (R180). -/
theorem writes_of_store_load {rs1 : RegIdx} {imm : BitVec 12} (hm : s.mem.wf = true)
    (hb : inBounds (effectiveAddress s rs1 imm) n.bytes = true)
    (hs : store s n (effectiveAddress s rs1 imm) v = .next t)
    (hl : exec i t = load t n ext rd (effectiveAddress t rs1 imm))
    (hw : ext ((v.extractLsb' 0 (8 * n.bytes)).setWidth 32) = w) : Writes i t rd w (t.pc + 4#32) := by
  rw [effectiveAddress_of_store rs1 imm hs] at hl
  exact writes_of_load hl (memRead_of_store hm hb hs) hw

end Sys2Proof.Claims

namespace Sys2Proof.Proofs

open Sys2Proof.Machine Sys2Proof.Claims

/-- Settles O5: in bounds each load retires the extension of the little-endian value read; out of bounds each raises. -/
theorem loadResults : Obligations.LoadResults := by
  intro s rd rs1 imm ea next
  have hbyte (hb : inBounds ea 1 = true) : memRead s.mem ea .byte = .ok ((byteAt s ea 0).setWidth 32) :=
    (memRead_byte s.mem ea).trans (if_pos hb)
  have hhalf (hb : inBounds ea 2 = true) :
      memRead s.mem ea .half = .ok ((byteAt s ea 1 ++ byteAt s ea 0).setWidth 32) :=
    (memRead_half s.mem ea).trans (if_pos hb)
  have hword (hb : inBounds ea 4 = true) : memRead s.mem ea .word = .ok (wordAt s ea) :=
    (memRead_word s.mem ea).trans (if_pos hb)
  exact ⟨fun hb => writes_of_load rfl (hbyte hb) (sextByte_setWidth _),
    fun hb => writes_of_load rfl (hhalf hb) (sextHalf_setWidth _),
    fun hb => writes_of_load rfl (hword hb) rfl,
    fun hb => writes_of_load rfl (hbyte hb) (zextByte_setWidth _),
    fun hb => writes_of_load rfl (hhalf hb) (zextHalf_setWidth _),
    stops_of_load (n := .byte) rfl, stops_of_load (n := .half) rfl, stops_of_load (n := .word) rfl,
    stops_of_load (n := .byte) rfl, stops_of_load (n := .half) rfl⟩

/-- Settles O6: in bounds each store writes its bytes into a canonical memory; out of bounds each raises. -/
theorem storeResults : Obligations.StoreResults :=
  fun _ _ _ _ hm => ⟨rfl, stores_of_store (n := .byte) rfl hm, stores_of_store (n := .half) rfl hm,
    stores_of_store (n := .word) rfl hm, stops_of_store (n := .byte) rfl, stops_of_store (n := .half) rfl,
    stops_of_store (n := .word) rfl⟩

/-- Settles O41: the store keeps the base register, so the load reads back the bytes it wrote and extends them. -/
theorem storeThenLoad : Obligations.StoreThenLoad := by
  intro s rd rs1 rs2 imm t hm v ea
  refine ⟨fun hb h => ?_, fun hb h => ⟨?_, ?_⟩, fun hb h => ⟨?_, ?_⟩⟩
  · have hw : wholeWord ((v.extractLsb' 0 32).setWidth 32) = v := by
      rw [wholeWord, BitVec.setWidth_eq, BitVec.extractLsb'_eq_self]
    exact writes_of_store_load (n := .word) hm hb h rfl hw
  · exact writes_of_store_load (n := .half) hm hb h rfl (sextHalf_setWidth _)
  · exact writes_of_store_load (n := .half) hm hb h rfl (zextHalf_setWidth _)
  · exact writes_of_store_load (n := .byte) hm hb h rfl (sextByte_setWidth _)
  · exact writes_of_store_load (n := .byte) hm hb h rfl (zextByte_setWidth _)

end Sys2Proof.Proofs
end

section
/-! The IMM class: each instruction retires one operation on x[rs1] and its sign-extended immediate or its shift amount
(spec/45_alu_immediate.md R190 to R199). A comparison retires 1 or 0; a right shift divides by a power of 2; the other
funct7 values of the shifts are illegal (R92, the spec's decision D12). -/

namespace Sys2Proof.Machine

variable {a : Word}

/-- Below 1 there is only 0 (R193, `seqz`). -/
theorem isLtUnsigned_one_iff : isLtUnsigned a 1#32 = true ↔ a = 0#32 :=
  BitVec.ult_iff_lt.trans (BitVec.lt_one_iff (by decide))

/-- Every other word is below the greatest one (R193). -/
theorem isLtUnsigned_allOnes_iff : isLtUnsigned a 0xFFFFFFFF#32 = true ↔ a ≠ 0xFFFFFFFF#32 :=
  BitVec.ult_iff_lt.trans BitVec.lt_allOnes_iff

/-- A logical right shift divides the unsigned value (R198). -/
theorem ushiftRight_eq_ofNat_div (a : Word) (n : Nat) : a >>> n = BitVec.ofNat 32 (a.toNat / 2 ^ n) := by
  rw [← Nat.shiftRight_eq_div_pow, ← BitVec.toNat_ushiftRight, BitVec.ofNat_toNat, BitVec.setWidth_eq]

/-- An arithmetic right shift divides the signed value, rounding down (R199). -/
theorem sshiftRight_eq_ofInt_div (a : Word) (n : Nat) : a.sshiftRight n = BitVec.ofInt 32 (a.toInt / 2 ^ n) := by
  rw [BitVec.sshiftRight, Int.shiftRight_eq_div_pow, Nat.cast_pow, Nat.cast_ofNat]

end Sys2Proof.Machine

namespace Sys2Proof.Claims

open Sys2Proof.Machine

/-- An instruction that retires the comparison that computes `p` writes 1 if `p` holds and 0 otherwise. -/
theorem writes_of_retire_boolWord {i : Instr} {s : State} {rd : RegIdx} {c : Bool} {p : Prop} [Decidable p]
    (hc : c = true ↔ p) (h : exec i s = retire s rd (boolWord c)) :
    Writes i s rd (if p then 1#32 else 0#32) (s.pc + 4#32) := by
  have hv : boolWord c = if p then 1#32 else 0#32 := if_congr hc rfl rfl
  exact writes_of_retire (hv ▸ h)

/-- An IMM word is illegal exactly when it is a shift whose funct7 is none of the shift's own (R85, R92). -/
theorem decodeWord_imm_illegal_iff {w : Word} (hop : opcode w = OpClass.imm.opcode) :
    decodeWord w = .error .illegalInstruction ↔
      (funct3 w = 0b001#3 ∧ funct7 w ≠ 0b0000000#7) ∨
        (funct3 w = 0b101#3 ∧ funct7 w ∉ [0b0000000#7, 0b0100000#7]) :=
  (decodeWord_eq_illegalInstruction_iff hop).trans decodeImm_eq_none_iff

end Sys2Proof.Claims

namespace Sys2Proof.Proofs

open Sys2Proof.Machine Sys2Proof.Claims

/-- Settles O7: each retires its operation on x[rs1] and the sign-extended immediate, SLTI the signed comparison. -/
theorem immediateArithmeticResults : Obligations.ImmediateArithmeticResults :=
  fun _ _ _ _ => ⟨writes_of_retire rfl, writes_of_retire_boolWord isLtSigned_iff rfl, writes_of_retire rfl,
    writes_of_retire rfl, writes_of_retire rfl⟩

/-- Settles O8: the immediates 1 and -1 extend to 1 and to the greatest word. -/
theorem sltiuResult : Obligations.SltiuResult := by
  intro s rd rs1 imm a next
  refine ⟨writes_of_retire_boolWord isLtUnsigned_iff rfl, writes_of_retire_boolWord isLtUnsigned_one_iff rfl, ?_⟩
  rw [← ite_not]
  exact writes_of_retire_boolWord isLtUnsigned_allOnes_iff rfl

/-- Settles O9: the right shifts as quotients, and the class's decoder. -/
theorem immediateShiftResults : Obligations.ImmediateShiftResults := by
  refine ⟨fun s rd rs1 shamt => ⟨writes_of_retire rfl, ?_, ?_⟩,
    fun w hop => ⟨fun hf3 hf7 => ?_, fun hf3 hsrl hsra => ?_⟩⟩
  · rw [← ushiftRight_eq_ofNat_div]
    exact writes_of_retire rfl
  · rw [← sshiftRight_eq_ofInt_div]
    exact writes_of_retire rfl
  · exact (decodeWord_imm_illegal_iff hop).mpr (.inl ⟨hf3, hf7⟩)
  · exact (decodeWord_imm_illegal_iff hop).mpr (.inr ⟨hf3, by simp [hsrl, hsra]⟩)

end Sys2Proof.Proofs
end

section
/-! The OP class: each instruction retires one operation on x[rs1] and x[rs2], both read before the write
(spec/46_alu_register.md R210 to R220). A comparison retires 1 or 0; a shift moves by x[rs2] modulo 32 (R80). -/

namespace Sys2Proof.Machine

/-- The low 5 bits of the word are its value modulo 32 (R80). -/
theorem shiftAmount_eq_mod (v : Word) : shiftAmount v = v.toNat % 32 := by
  rw [shiftAmount, BitVec.extractLsb'_toNat, Nat.shiftRight_zero]

end Sys2Proof.Machine

namespace Sys2Proof.Proofs

open Sys2Proof.Machine Sys2Proof.Claims

/-- Settles O10: each retires its operation on the two registers; the shifts by the low 5 bits of x[rs2], the right ones
as quotients. -/
theorem registerArithmeticResults : Obligations.RegisterArithmeticResults := by
  intro s rd rs1 rs2 a b n next
  have hn : n = shiftAmount b := (shiftAmount_eq_mod b).symm
  refine ⟨writes_of_retire rfl, writes_of_retire rfl, ?sll, writes_of_retire_boolWord isLtSigned_iff rfl,
    writes_of_retire_boolWord isLtUnsigned_iff rfl, writes_of_retire rfl, ?srl, ?sra, writes_of_retire rfl,
    writes_of_retire rfl⟩
  case sll =>
    rw [hn]
    exact writes_of_retire rfl
  case srl =>
    rw [hn, ← ushiftRight_eq_ofNat_div]
    exact writes_of_retire rfl
  case sra =>
    rw [hn, ← sshiftRight_eq_ofInt_div]
    exact writes_of_retire rfl

end Sys2Proof.Proofs
end

section
/-! FENCE advances pc and nothing else, and its class has an operation for funct3 = 000 alone; ECALL halts with what the
convention makes of the status register (spec/47_misc_system.md R230, R231, spec/30_encoding.md R87, R92). -/

namespace Sys2Proof.Claims

open Sys2Proof.Machine

variable {i : Instr} {s : State}

/-- An instruction that only advances goes to pc + 4 and changes nothing else (R116). -/
theorem goes_of_advance (h : exec i s = advance s) : Goes i s (s.pc + 4#32) :=
  ⟨_, h, fun _ => rfl, rfl, fun _ => rfl, rfl, rfl⟩

/-- ECALL stops with the outcome that the convention gives to the status value (R231). -/
theorem stops_ecall {o : RunOutcome} (ho : ecallOutcome s.conv (s.readReg s.conv.statusReg) = o) :
    Stops .ecall s o := by
  rw [← ho]; rfl

end Sys2Proof.Claims

namespace Sys2Proof.Proofs

open Sys2Proof.Claims

/-- Settles O11: FENCE advances, and the class's decoder looks at funct3 alone. -/
theorem fenceOnlyAdvances : Obligations.FenceOnlyAdvances :=
  ⟨fun _ _ _ _ _ _ => goes_of_advance rfl,
    fun _ hop hf => ⟨_, _, _, _, _,
      (decodeWord_eq_ok_iff (c := .miscmem) hop).mpr (decodeMiscmem_eq_some_iff.mpr ⟨hf, rfl⟩)⟩,
    fun _ hop hf =>
      (decodeWord_eq_illegalInstruction_iff (c := .miscmem) hop).mpr (decodeMiscmem_eq_none_iff.mpr hf)⟩

/-- Settles O12: the status value is compared with the pass value, under whatever convention the state holds. -/
theorem ecallHalts : Obligations.EcallHalts :=
  ⟨fun _ => ⟨fun h => stops_ecall (if_pos h), fun h => stops_ecall (if_neg h)⟩, rfl, rfl⟩

end Sys2Proof.Proofs
end

section
/-! How a running cycle comes to halt: an error of the fetch or the decoder, a data access out of bounds, or ECALL; each
changes the run state alone (spec/60_exceptions.md R241 to R247). -/

namespace Sys2Proof.Machine

variable {i : Instr} {s t : State} {o : RunOutcome} {k : ErrorKind}

/-- The data access of the instruction, if it has one, does not lie in the window (R42, R244). -/
def AccessOutOfBounds (i : Instr) (s : State) : Prop :=
  ∃ rs1 imm n, i.access = some (rs1, imm, n) ∧ inBounds (effectiveAddress s rs1 imm) n = false

/-- Of the shapes only the halt changes the run state, and it changes nothing else (R117, R247). -/
theorem Shape.eq_halt (h : Shape s t) (hs : s.run = .running) (ho : t.run = .halted o) : t = s.halt o := by
  cases h with
  | wrote | went | stored => cases hs.symm.trans ho
  | stopped => cases ho; rfl

theorem step_eq_halt (hs : s.run = .running) (h : step s = .next t) (ho : t.run = .halted o) : t = s.halt o := by
  obtain rfl | hshape := step_shape h
  · cases hs.symm.trans ho
  · exact hshape.eq_halt hs ho

/-! ### What halts an instruction -/

/-- A load of a running core halts out of bounds alone (R170). -/
theorem load_halted {n : AccessWidth} {ext : Word → Word} {rd : RegIdx} {ea : Word} (hs : s.run = .running)
    (h : load s n ext rd ea = .next t) (ho : t.run = .halted o) :
    inBounds ea n.bytes = false ∧ o = .error .outOfBounds := by
  obtain ⟨hb, e⟩ | ⟨_, e⟩ := load_cases s n ext rd ea <;> cases e.symm.trans h
  · cases ho; exact ⟨hb, rfl⟩
  · cases hs.symm.trans ho

/-- A store of a running core halts out of bounds alone (R176). -/
theorem store_halted {n : AccessWidth} {ea v : Word} (hs : s.run = .running) (h : store s n ea v = .next t)
    (ho : t.run = .halted o) : inBounds ea n.bytes = false ∧ o = .error .outOfBounds := by
  obtain ⟨hb, e⟩ | ⟨_, e⟩ := store_cases s n ea v <;> cases e.symm.trans h
  · cases ho; exact ⟨hb, rfl⟩
  · cases hs.symm.trans ho

/-- An instruction of a running core halts with OutOfBounds by its data access, or it is ECALL (R242, R247). -/
theorem exec_halted_cases (hs : s.run = .running) (h : exec i s = .next t) (ho : t.run = .halted o) :
    (AccessOutOfBounds i s ∧ o = .error .outOfBounds) ∨
      (i = .ecall ∧ o = ecallOutcome s.conv (s.readReg s.conv.statusReg)) := by
  cases i
  case lb | lh | lw | lbu | lhu => exact .inl ((load_halted hs h ho).imp_left fun hb => ⟨_, _, _, rfl, hb⟩)
  case sb | sh | sw => exact .inl ((store_halted hs h ho).imp_left fun hb => ⟨_, _, _, rfl, hb⟩)
  case ecall => cases h; cases ho; exact .inr ⟨rfl, rfl⟩
  all_goals cases h; cases hs.symm.trans ho

/-- A data access out of bounds raises OutOfBounds before anything is written (R170, R176). -/
theorem AccessOutOfBounds.exec_eq_raise (h : AccessOutOfBounds i s) : exec i s = .next (s.raise .outOfBounds) := by
  obtain ⟨rs1, imm, n, ha, hb⟩ := h
  cases i
  case lb | lh | lw | lbu | lhu => cases ha; exact load_out_of_bounds _ _ hb
  case sb | sh | sw => cases ha; exact store_of_outOfBounds _ hb
  all_goals cases ha

theorem ecallOutcome_ne_error (c : Config.Convention) (v : Word) : ecallOutcome c v ≠ .error k := by
  unfold ecallOutcome
  split <;> nofun

/-! ### What halts a cycle -/

/-- In bounds, the fetched instruction is what the word at pc decodes to (R45, R111). -/
theorem fetchInstr_of_inBounds (hb : inBounds s.pc 4 = true) :
    fetchInstr s = decodeWord (Claims.wordAt s s.pc) := by
  simp only [fetchInstr, fetchWord_eq_wordAt hb]

/-- Out of bounds, the fetch is the first failing check (R45, R245). -/
theorem fetchInstr_of_outOfBounds (hb : inBounds s.pc 4 = false) : fetchInstr s = .error .outOfBounds := by
  simp [fetchInstr, fetchWord, hb]

theorem inBounds_of_fetchInstr (h : fetchInstr s = .ok i) : inBounds s.pc 4 = true := by
  by_contra hb
  cases (fetchInstr_of_outOfBounds (Bool.eq_false_iff.mpr hb)).symm.trans h

/-- A running cycle halts with the error of its fetch or decoder, or the fetched instruction halts it (R241 to R245). -/
theorem step_halted_cases (hs : s.run = .running) (h : step s = .next t) (ho : t.run = .halted o) :
    (∃ k, fetchInstr s = .error k ∧ o = .error k) ∨
      (∃ i, fetchInstr s = .ok i ∧ AccessOutOfBounds i s ∧ o = .error .outOfBounds) ∨
      (fetchInstr s = .ok .ecall ∧ o = ecallOutcome s.conv (s.readReg s.conv.statusReg)) := by
  obtain ⟨_, hr, _⟩ | ⟨k, _, hf, e⟩ | ⟨i, _, hf, e⟩ := step_cases s
  · cases hs.symm.trans hr
  · cases e.symm.trans h
    cases ho
    exact .inl ⟨k, hf, rfl⟩
  · obtain hacc | ⟨rfl, ho⟩ := exec_halted_cases hs (e.symm.trans h) ho
    · exact .inr (.inl ⟨i, hf, hacc⟩)
    · exact .inr (.inr ⟨hf, ho⟩)

/-- A running cycle ends in an error exactly by its fetch, its decoder or its data access (R241, R242, R244). -/
theorem step_error_iff (hs : s.run = .running) : (∃ t, step s = .next t ∧ t.run = .halted (.error k)) ↔
    fetchInstr s = .error k ∨ ∃ i, fetchInstr s = .ok i ∧ AccessOutOfBounds i s ∧ k = .outOfBounds := by
  constructor
  · rintro ⟨t, h, ho⟩
    obtain ⟨_, hf, ho⟩ | ⟨i, hf, hacc, ho⟩ | ⟨_, ho⟩ := step_halted_cases hs h ho
    · cases ho; exact .inl hf
    · cases ho; exact .inr ⟨i, hf, hacc, rfl⟩
    · exact absurd ho.symm (ecallOutcome_ne_error _ _)
  · rintro (hf | ⟨i, hf, hacc, rfl⟩)
    · exact ⟨s.raise k, by simp only [step, hs, hf], rfl⟩
    · exact ⟨s.raise .outOfBounds, by simp only [step, hs, hf, hacc.exec_eq_raise], rfl⟩

end Sys2Proof.Machine

namespace Sys2Proof.Claims

open Sys2Proof.Machine

variable {i : Instr} {s : State} {w : Word} {k : ErrorKind}

/-! ### The checks over the raw word -/

theorem opcode_encode (i : Instr) : opcode (encode i) = i.opClass.opcode := opcodeOf_encode i

theorem wordAddress_of_load (h : opcode w = OpClass.load.opcode) :
    wordAddress s w = s.readReg (rs1Of w) + sext12 (immIField w) :=
  congrArg (s.readReg (rs1Of w) + ·) (if_pos h)

theorem wordAddress_of_store (h : opcode w = OpClass.store.opcode) :
    wordAddress s w = s.readReg (rs1Of w) + sext12 (immSField w) :=
  congrArg (s.readReg (rs1Of w) + ·) (if_neg (by rw [h]; decide))

/-- The address of a data access is the one its word gives (R170, R176). -/
theorem wordAddress_encode {rs1 : RegIdx} {imm : BitVec 12} {n : Nat} (h : i.access = some (rs1, imm, n)) :
    wordAddress s (encode i) = effectiveAddress s rs1 imm := by
  have hop := opcode_encode i
  cases i
  case lb | lh | lw | lbu | lhu =>
    cases h; rw [wordAddress_of_load hop, encode, rs1Of_encodeI, immIField_encodeI]; rfl
  case sb | sh | sw =>
    cases h; rw [wordAddress_of_store hop, encode, rs1Of_encodeS, immSField_encodeS]; rfl
  all_goals cases h

/-- The instructions with a data access are the loads and the stores (R113). -/
theorem exists_access_iff : (∃ rs1 imm n, i.access = some (rs1, imm, n)) ↔
    opcode (encode i) = OpClass.load.opcode ∨ opcode (encode i) = OpClass.store.opcode := by
  rw [opcode_encode]
  cases i
  case lb | lh | lw | lbu | lhu => exact iff_of_true ⟨_, _, _, rfl⟩ (.inl rfl)
  case sb | sh | sw => exact iff_of_true ⟨_, _, _, rfl⟩ (.inr rfl)
  all_goals exact iff_of_false nofun (by simp [Instr.opClass, OpClass.opcode])

/-- The bounds check on the raw word is the one on the instruction it encodes (R244). -/
theorem dataOutOfBounds_encode_iff : DataOutOfBounds s (encode i) ↔ AccessOutOfBounds i s := by
  constructor
  · rintro ⟨hop, hb⟩
    obtain ⟨rs1, imm, n, ha⟩ := exists_access_iff.mpr hop
    rw [wordAddress_encode ha, ← wordWidth_encode ha] at hb
    exact ⟨rs1, imm, n, ha, hb⟩
  · rintro ⟨rs1, imm, n, ha, hb⟩
    refine ⟨exists_access_iff.mp ⟨rs1, imm, n, ha⟩, ?_⟩
    rwa [wordAddress_encode ha, ← wordWidth_encode ha]

/-- A word of the table that R92 does not list has an instruction (R90). -/
theorem exists_decodeWord_eq_ok (hop : opcode w ∈ knownOpcodes) (hill : ¬ IllegalWord w) :
    ∃ i, decodeWord w = .ok i := by
  obtain ⟨c, hc⟩ := mem_knownOpcodes_iff.mp hop
  obtain ⟨i, hi⟩ := Option.ne_none_iff_exists'.mp (mt (illegalWord_iff_decodeIn hc).mpr hill)
  exact ⟨i, (decodeWord_eq_ok_iff hc).mpr hi⟩

/-- The checks of R245 in their order are those of the fetch, the decoder and the data access. -/
theorem firstError_iff : FirstError s k ↔
    fetchInstr s = .error k ∨ ∃ i, fetchInstr s = .ok i ∧ AccessOutOfBounds i s ∧ k = .outOfBounds := by
  cases hb : inBounds s.pc 4 with
  | false => simp [FirstError, hb, fetchInstr_of_outOfBounds hb, eq_comm]
  | true =>
    rw [fetchInstr_of_inBounds hb]
    by_cases hop : opcode (wordAt s s.pc) ∈ knownOpcodes
    · by_cases hill : IllegalWord (wordAt s s.pc)
      · have hd := (Proofs.illegalWordsExactly _).mpr hill
        simp [FirstError, hb, hop, hill, hd, eq_comm]
      · obtain ⟨i, hd⟩ := exists_decodeWord_eq_ok hop hill
        have hdata : DataOutOfBounds s (wordAt s s.pc) ↔ AccessOutOfBounds i s :=
          (encode_of_decodeWord hd).2 ▸ dataOutOfBounds_encode_iff
        simp [FirstError, hb, hop, hill, hd, hdata]
    · have hd := (Proofs.unknownOpcodeExactly _).mpr hop
      simp [FirstError, hb, hop, hd, eq_comm]

end Sys2Proof.Claims

namespace Sys2Proof.Proofs

open Sys2Proof.Machine Sys2Proof.Claims

/-- Settles O28: only the halt changes the run state, and it changes nothing else. -/
theorem errorKeepsTheState : Obligations.ErrorKeepsTheState :=
  fun _ _ _ hs h ho => step_eq_halt hs h ho

/-- Settles O29: the machine's checks and those over the raw word are the same three, in the same order. -/
theorem errorsExactlyInOrder : Obligations.ErrorsExactlyInOrder :=
  fun _ _ hs => (step_error_iff hs).trans firstError_iff.symm

/-- Settles O30: an end that is no error is ECALL's, and ECALL has one encoding. -/
theorem onlyEcallPassesOrFails : Obligations.OnlyEcallPassesOrFails := by
  intro s t o hs h ho hne
  obtain ⟨k, _, rfl⟩ | ⟨_, _, _, rfl⟩ | ⟨hf, _⟩ := step_halted_cases hs h ho
  · exact absurd rfl (hne k)
  · exact absurd rfl (hne .outOfBounds)
  · obtain ⟨ecall_iff, _⟩ := systemWordsOnlyEcall
    exact ⟨inBounds_of_fetchInstr hf, (ecall_iff _).mp (decodeWord_of_fetchInstr hf), step_eq_halt hs h ho⟩

end Sys2Proof.Proofs
end
